-- ==== Sys2Proof/Word.lean ====
section
/-!
DEFINITION. The words and the data types of the block (00_scope.md R13, 10_state.md R27 to R31).
-/

namespace Sys2Proof

/-- One bit of a row or of a 1-bit port: 0 or 1 (R13). -/
abbrev Bit := BitVec 1

/-- The nine frame bits as one value: frame bit `f[k]` is `data[8-k]` (R15, format `F9` of R61). -/
abbrev FrameData := BitVec 9

/-- The response word `{rsp_valid, rsp_status, rsp_id, rsp_battery_ok}` (R28, R63). -/
abbrev RspWord := BitVec 8

/-- The trace word `{trc_valid, trc_data, trc_battery_raw, trc_battery_ok, trc_id}` (R29, R64). -/
abbrev TrcWord := BitVec 16

/-- A row: its bits in the order received, of any length (R13). -/
abbrev Row := List Bit

/-- A bit buffer: its rows in order, of any number (R13, R40). -/
abbrev BitBuffer := List Row

/-- The elaboration-time widths of the two count ports (R11). -/
structure Params where
  /-- `W_ROWS`, the width of the port `row_count`. -/
  wRows : Nat
  /-- `W_LEN`, the width of the port `row0_len`. -/
  wLen : Nat
deriving DecidableEq, Repr

/-- The bounds R11 puts on the widths. -/
abbrev Params.wf (p : Params) : Prop := 2 ≤ p.wRows ∧ 4 ≤ p.wLen

/-- The width of the request word `REQ`, 42 at the default widths (R60, R62). -/
abbrev Params.reqWidth (p : Params) : Nat := 1 + p.wRows + p.wLen + 9

/-- The input ports as sampled at one rising edge of `clk` (R30). The counts are numbers (R44). -/
structure Ports where
  rst : Bit
  reqValid : Bit
  rowCount : Nat
  row0Len : Nat
  row0Bits : FrameData
deriving DecidableEq, Repr

/-- The two typed failures (R13, R120). -/
inductive DecodeError where
  | wrongRowCount
  | wrongLength
deriving DecidableEq, Repr

/-- What validating and reading a buffer comes to: a typed failure or the nine bits (R47, R83). -/
abbrev Answer := Except DecodeError FrameData

/-- FREE VALUES: what shows after an edge whose inputs were not stable. Every value of this type can
be drawn: `answer` gives each of the 35 legal words of `RSP` (`none` is no response), `trace` each of
the 513 legal words of `TRC` (`none` is no trace), and neither fixes the other (U4).
DESIGN CHOICE (log 8). Safe. -/
structure EdgeDraw where
  answer : Option Answer
  trace : Option FrameData
deriving DecidableEq, Repr

/-- FREE VALUES: what comes of a Layer F call whose buffer was changed during the call: any result and
any trace record, or none (U4). DESIGN CHOICE (log 18). Safe. -/
structure CallDraw where
  answer : Answer
  trace : Option FrameData
deriving DecidableEq, Repr

/-- What the upstream caller does to the block in one step (R14, R150). Where the caller breaks its
duty not to change the inputs during the operation (R49, R147), the spec leaves the response open (U4):
the act then carries the free values, drawn anew for each such act of each instance. -/
inductive Input where
  /-- A rising edge of `clk` at which the ports hold these values (Layer H). -/
  | edge (ports : Ports)
  /-- A call of `decode` on this buffer, `none` being the absent one (Layer F, R105). -/
  | call (buf : Option BitBuffer)
  /-- A rising edge at which the inputs change inside the sampling window (R49, R147, U4).
  DESIGN CHOICE (log 8): a free draw, where D25 also allows a refusal. Safe. -/
  | unstable (draw : EdgeDraw)
  /-- A call of `decode` on a buffer that is mutated during the call (R49, R147, U4).
  DESIGN CHOICE (log 18): a free result, whatever the buffer held before or after. Safe. -/
  | unstableCall (draw : CallDraw)
deriving DecidableEq, Repr

/-- The record of a successful decode, its fields in the order of C1 (R13, R95). -/
structure DecodedMessage where
  model : String
  id : Fin 16
  batteryOk : Fin 2
deriving DecidableEq, Repr

/-- The result of `decode` (R13). -/
inductive Result where
  | ok (m : DecodedMessage)
  | err (e : DecodeError)
deriving DecidableEq, Repr

/-- The optional diagnostic trace record, its four values in DOC0's order (R111). -/
structure TraceRecord where
  data : FrameData
  batteryRaw : Bit
  batteryOk : Bit
  id : BitVec 4
deriving DecidableEq, Repr

/-- The modulation the descriptor names (R27). -/
inductive Modulation where
  /-- On-off-keyed pulse-width modulation. -/
  | ookPwm
deriving DecidableEq, Repr

/-- The descriptor constants `DESC.*` (R27). -/
structure Descriptor where
  requiredRows : Nat
  requiredBits : Nat
  modulation : Modulation
  shortWidth : Nat
  longWidth : Nat
  syncWidth : Nat
  gapLimit : Nat
  resetLimit : Nat
  tolerance : Nat
deriving DecidableEq, Repr

end Sys2Proof
end

