-- ==== Sys2Proof/Config.lean ====
section
/-!
DEFINITION. What is fixed for this hardware (00_scope.md R10, R11; 10_state.md R27, R32).
The free values of 93_implementation_defined.md U4 are no constants: each act of the caller that leaves a
value open carries its own draw (`EdgeDraw`, `CallDraw`; logs 8, 18).
-/

namespace Sys2Proof

/-- The default widths (R11). -/
def Params.default : Params := { wRows := 16, wLen := 16 }

/-- `REQUIRED_ROWS` (R10). -/
abbrev Config.requiredRows : Nat := 1

/-- `FRAME_BITS` (R10). -/
abbrev Config.frameBits : Nat := 9

/-- `MODEL_STRING` (R10). -/
def Config.modelString : String := "MightyMule-FM231"

/-- `MODEL`: the sixteen characters, one per byte, the first in the most significant byte (R32).
PRESUMED (log 12): the codes are ASCII, which the spec marks as general knowledge (G1). Unsafe. -/
def Config.model : BitVec 128 := 0x4D69676874794D756C652D464D323331

/-- `DESC.*` (R27; the values of DOC0's table by C2). -/
def Config.desc : Descriptor :=
  { requiredRows := 1, requiredBits := 9, modulation := .ookPwm, shortWidth := 650,
    longWidth := 1200, syncWidth := 3800, gapLimit := 1100, resetLimit := 1100, tolerance := 200 }

end Sys2Proof
end

