-- ==== Sys2Proof/Machine/Buffer.lean ====
section
/-!
DEFINITION. The one address space, the input bit buffer: its three observables, the MSB-first read
(00_scope.md R16, 20_memory.md R40 to R47), and how a caller presents a buffer at the ports
(10_state.md R30, 70_reset_and_hazards.md R148). `len` and `memRead` are defined only inside the
buffer (R16), so each takes the bound as a proof: no operation can read outside (R46).
-/

namespace Sys2Proof.Machine

/-- The rows of the buffer; an absent buffer has none (R16, C5). -/
def contents (buf : Option BitBuffer) : BitBuffer := buf.getD []

/-- `Rows(buf)` (R16). -/
def rows (buf : Option BitBuffer) : Nat := (contents buf).length

/-- Row `r`, which exists for `r < Rows(buf)`. -/
def row (buf : Option BitBuffer) (r : Nat) (h : r < rows buf) : Row := (contents buf)[r]'h

/-- `Len(buf, r)` (R16). -/
def len (buf : Option BitBuffer) (r : Nat) (h : r < rows buf) : Nat := (row buf r h).length

/-- `BitRead(r, k)` (R16). -/
def bitRead (buf : Option BitBuffer) (r k : Nat) (h : r < rows buf) (hk : k < len buf r h) : Bit :=
  (row buf r h)[k]'hk

/-- The number the bits write, the first one most significant (R43). -/
def valueOfBits (bits : List Bit) : Nat := bits.foldl (fun acc b => 2 * acc + b.toNat) 0

/-- `MemRead((r,k), n)`: bits `k` to `k+n-1` of row `r`, bit `k` most significant (R16, R43). -/
def memRead (buf : Option BitBuffer) (r k n : Nat) (h : r < rows buf)
    (_hk : k + n ≤ len buf r h) : BitVec n :=
  BitVec.ofNat n (valueOfBits (((row buf r h).drop k).take n))

/-- A count as a port of `w` bits carries it: the largest value of the port where it does not fit,
never wrapped (R42, D6). -/
def saturate (w n : Nat) : Nat := min n (2 ^ w - 1)

/-- The first row, empty where there is none. -/
def firstRow (buf : Option BitBuffer) : Row := (contents buf).headD []

/-- A truthful presentation of a buffer at the ports, `DECODE <buffer>` (R30, R75, R148).
DESIGN CHOICE (log 13): inputs that R30 ignores hold 0, as the spec's vectors do. Safe. -/
def present (p : Params) (buf : Option BitBuffer) : Ports :=
  { rst := 0
    reqValid := 1
    rowCount := saturate p.wRows (rows buf)
    row0Len := saturate p.wLen (firstRow buf).length
    row0Bits := BitVec.ofNat 9 (valueOfBits ((firstRow buf ++ List.replicate 9 0).take 9)) }

/-- The ports in an idle cycle (R75). The ignored fields hold 0 (log 13). -/
def idlePorts : Ports := { rst := 0, reqValid := 0, rowCount := 0, row0Len := 0, row0Bits := 0 }

/-- The eight bits of a byte, bit 7 first. -/
def bitsOfByte (b : BitVec 8) : List Bit :=
  [b.extractLsb' 7 1, b.extractLsb' 6 1, b.extractLsb' 5 1, b.extractLsb' 4 1,
   b.extractLsb' 3 1, b.extractLsb' 2 1, b.extractLsb' 1 1, b.extractLsb' 0 1]

/-- The nine-bit row that two bytes hold when bit `k` of the row is bit `7-(k mod 8)` of byte
`floor(k/8)`. PRESUMED (log 15): R43 gives this packing as general knowledge (G2). Unsafe. -/
def packedRow (byte0 byte1 : BitVec 8) : Row := (bitsOfByte byte0 ++ bitsOfByte byte1).take 9

/-- R43's informative formula `((byte0 << 1) | (byte1 >> 7)) & 0x1FF`. PRESUMED (log 15). Unsafe. -/
def packedData (byte0 byte1 : BitVec 8) : FrameData :=
  ((byte0.zeroExtend 9) <<< 1) ||| ((byte1 >>> 7).zeroExtend 9)

end Sys2Proof.Machine
end

