-- ==== Sys2Proof/Machine/Validation.lean ====
section
/-!
DEFINITION. The validator: the row-count check, the length check, in that order, and the read that
they guard (40_validation.md R80 to R85, 41_extraction.md R90).
-/

namespace Sys2Proof.Machine

/-- `CHECK_ROWS` (R81): the failure it raises, if any. -/
def checkRows (rowCount : Nat) : Option DecodeError :=
  if rowCount ≠ Config.requiredRows then some .wrongRowCount else none

/-- `CHECK_LEN` (R82): the failure it raises, if any. -/
def checkLen (length : Nat) : Option DecodeError :=
  if length ≠ Config.frameBits then some .wrongLength else none

/-- A passed row-count check means row 0 exists (R46). -/
theorem row0_exists {buf : Option BitBuffer} (h : checkRows (rows buf) = none) : 0 < rows buf := by
  unfold checkRows at h
  split at h
  · simp at h
  · rename_i hr
    have hr1 : rows buf = 1 := by simpa using hr
    omega

/-- A passed length check means bits 0 to 8 exist (R46). -/
theorem frame_exists {length : Nat} (h : checkLen length = none) : 0 + 9 ≤ length := by
  unfold checkLen at h
  split at h
  · simp at h
  · rename_i hl
    have hl9 : length = 9 := by simpa using hl
    omega

/-- The two checks and then `READ9`: the accesses of one operation in the order of R47. The first
failure ends it (R83). -/
def readFrame (buf : Option BitBuffer) : Except DecodeError FrameData :=
  match hr : checkRows (rows buf) with
  | some e => .error e
  | none =>
    match hl : checkLen (len buf 0 (row0_exists hr)) with
    | some e => .error e
    | none => .ok (memRead buf 0 0 9 (row0_exists hr) (frame_exists hl))

end Sys2Proof.Machine
end

