-- ==== Sys2Proof/Syntax.lean ====
section
/-!
DEFINITION. The instructions: one constructor per row of spec/opcode_table.json (30_encoding.md R67
to R69, R76). A request row keeps the fields it ignores (R73), so that an encoding loses no bit.
-/

namespace Sys2Proof

inductive Instr where
  /-- `IDLE`: `req_valid = 0` (R107). Every field is ignored. -/
  | idle (rowCount row0Len : Nat) (row0Bits : FrameData)
  /-- `DECODE.OK`: `row_count = 1`, `row0_len = 9` (R106). -/
  | decodeOk (row0Bits : FrameData)
  /-- `DECODE.WRONGLEN`: `row_count = 1`, `row0_len` other than 9 (R106). -/
  | decodeWrongLen (row0Len : Nat) (row0Bits : FrameData)
  /-- `DECODE.WRONGROWS`: `row_count` other than 1 (R106). -/
  | decodeWrongRows (rowCount row0Len : Nat) (row0Bits : FrameData)
  /-- `RESET`: the pin `rst` is 1 (R108). -/
  | reset
  /-- `FM231.FRAME`: a frame of nine bits handed to `decode` (R105, R69). -/
  | frame (data : FrameData)
deriving DecidableEq, Repr

end Sys2Proof
end

