-- ==== Sys2Proof/Decode.lean ====
section
/-!
DEFINITION. From ports, words and buffers to instructions, and back (30_encoding.md R60 to R76).
Three spaces hold encodings: the request word `REQ`, the pin `rst`, the frame `F9` (R76). Decoding
is total; what selects no row is rejected by name.
-/

namespace Sys2Proof

/-- The operation a sampled set of ports selects: `rst` first (R108), then `req_valid` (R67), then
the outcome class by the two checks in their order (R68, R83). -/
def decodePorts (q : Ports) : Instr :=
  if q.rst = 1 then .reset
  else if q.reqValid = 0 then .idle q.rowCount q.row0Len q.row0Bits
  else
    match Machine.checkRows q.rowCount, Machine.checkLen q.row0Len with
    | some _, _ => .decodeWrongRows q.rowCount q.row0Len q.row0Bits
    | none, some _ => .decodeWrongLen q.row0Len q.row0Bits
    | none, none => .decodeOk q.row0Bits

/-- The frame a buffer holds, as the instruction of the frame space; a buffer of another shape is
rejected with the typed failure the spec names (R71). DEDUCED (log 5). Unsafe. -/
def decodeBuffer (buf : Option BitBuffer) : Except DecodeError Instr :=
  match Machine.readFrame buf with
  | .ok data => .ok (.frame data)
  | .error e => .error e

/-- `{req_valid, row_count, row0_len, row0_bits}` (R62). -/
def reqWord (p : Params) (reqValid : Bit) (rowCount row0Len : Nat) (row0Bits : FrameData) :
    BitVec p.reqWidth :=
  reqValid ++ BitVec.ofNat p.wRows rowCount ++ BitVec.ofNat p.wLen row0Len ++ row0Bits

/-- The ports a request word stands for; `rst` is not part of it (R62). -/
def unpackReq (p : Params) (w : BitVec p.reqWidth) : Ports :=
  { rst := 0
    reqValid := w.extractLsb' (p.wRows + p.wLen + 9) 1
    rowCount := (w.extractLsb' (p.wLen + 9) p.wRows).toNat
    row0Len := (w.extractLsb' 9 p.wLen).toNat
    row0Bits := w.extractLsb' 0 9 }

/-- An encoded operation: a word of one of the three spaces (R76). -/
inductive Code (p : Params) where
  | request (w : BitVec p.reqWidth)
  | pin (w : BitVec 1)
  | frame (w : FrameData)
deriving DecidableEq, Repr

/-- Why bits select no operation. -/
inductive Reject where
  /-- The pin `rst` at 0 selects no row of its space; `REQ` decides that cycle (R76). -/
  | pinLow
  /-- No format of the table has this many bits (R60). -/
  | noSuchFormat
  /-- A bit above the format's fixed width is set (R60). -/
  | bitsAboveWidth
deriving DecidableEq, Repr

/-- The decoder of encoded operations. -/
def decodeCode (p : Params) : Code p → Except Reject Instr
  | .request w => .ok (decodePorts (unpackReq p w))
  | .pin w => if w = 1 then .ok .reset else .error .pinLow
  | .frame w => .ok (.frame w)

/-- The encoder. -/
def encode (p : Params) : Instr → Code p
  | .idle rowCount row0Len row0Bits => .request (reqWord p 0 rowCount row0Len row0Bits)
  | .decodeOk row0Bits => .request (reqWord p 1 Config.requiredRows Config.frameBits row0Bits)
  | .decodeWrongLen row0Len row0Bits =>
    .request (reqWord p 1 Config.requiredRows row0Len row0Bits)
  | .decodeWrongRows rowCount row0Len row0Bits =>
    .request (reqWord p 1 rowCount row0Len row0Bits)
  | .reset => .pin 1
  | .frame data => .frame data

/-- The four rows of the request space (R68). -/
inductive ReqClass where
  | idle
  | ok
  | wrongLen
  | wrongRows
deriving DecidableEq, Repr

/-- One row of the operation map: a word selects it when `(w & mask) == match` (R68). -/
structure ReqRow (p : Params) where
  cls : ReqClass
  pattern : BitVec p.reqWidth
  mask : BitVec p.reqWidth
deriving DecidableEq, Repr

/-- The operation map rebuilt for the widths `p`, in the order it is tried (R68, R76). -/
def reqTable (p : Params) : List (ReqRow p) :=
  let ones := 2 ^ p.wRows - 1
  let onesLen := 2 ^ p.wLen - 1
  [ { cls := .idle, pattern := reqWord p 0 0 0 0, mask := reqWord p 1 0 0 0 },
    { cls := .ok, pattern := reqWord p 1 1 9 0, mask := reqWord p 1 ones onesLen 0 },
    { cls := .wrongLen, pattern := reqWord p 1 1 0 0, mask := reqWord p 1 ones 0 0 },
    { cls := .wrongRows, pattern := reqWord p 1 0 0 0, mask := reqWord p 1 0 0 0 } ]

/-- The word selects the row. -/
def ReqRow.selects {p : Params} (r : ReqRow p) (w : BitVec p.reqWidth) : Bool :=
  w &&& r.mask == r.pattern

/-- The first row that matches (R68). -/
def classOfWord (p : Params) (w : BitVec p.reqWidth) : Option ReqClass :=
  ((reqTable p).find? (fun r => r.selects w)).map (fun r => r.cls)

/-- The row of the request space an instruction belongs to, if it is a request. -/
def Instr.reqClass : Instr → Option ReqClass
  | .idle _ _ _ => some .idle
  | .decodeOk _ => some .ok
  | .decodeWrongLen _ _ => some .wrongLen
  | .decodeWrongRows _ _ _ => some .wrongRows
  | .reset => none
  | .frame _ => none

/-- The encoded operation a number of the opcode table stands for, bit 0 least significant, at the
default widths (R76). `nbits` is the format's width, or that width in whole bytes.
DESIGN CHOICE (log 3): the block stores no words, so a number is split by its format alone. Safe. -/
def codeOfNumber (nbits w : Nat) : Except Reject (Code Params.default) :=
  if nbits = 1 ∨ nbits = 8 then
    if w < 2 then .ok (.pin (BitVec.ofNat 1 w)) else .error .bitsAboveWidth
  else if nbits = 9 ∨ nbits = 16 then
    if w < 2 ^ 9 then .ok (.frame (BitVec.ofNat 9 w)) else .error .bitsAboveWidth
  else if nbits = 42 ∨ nbits = 48 then
    if w < 2 ^ 42 then .ok (.request (BitVec.ofNat _ w)) else .error .bitsAboveWidth
  else .error .noSuchFormat

/-- The instruction the decoder reads from a number of the opcode table, or why there is none. -/
def decodeNumber (nbits w : Nat) : Except Reject Instr :=
  match codeOfNumber nbits w with
  | .ok c => decodeCode Params.default c
  | .error e => .error e

/-- The same, as the host asks for it. -/
def decodeTableWord (nbits w : Nat) : Option Instr := (decodeNumber nbits w).toOption

/-- The row of nine bits whose frame is `data`, first received bit first (R15). -/
def rowOfFrame (data : FrameData) : Row :=
  [data.extractLsb' 8 1, data.extractLsb' 7 1, data.extractLsb' 6 1, data.extractLsb' 5 1,
   data.extractLsb' 4 1, data.extractLsb' 3 1, data.extractLsb' 2 1, data.extractLsb' 1 1,
   data.extractLsb' 0 1]

/-- What the caller does to the block so that it runs an encoded operation: an edge with the request
on the ports, an edge with `rst` at the pin's value, or a call on the one-row buffer of the frame.
DESIGN CHOICE (log 3): a pin word says nothing of the request ports, so its edge goes with no request
(`req_valid` 0 and 0 on the rest). The pin at 1 is then `RESET`, which ignores them (R108); the pin at
0, which `decodeCode` refuses, is then an idle edge. Safe for the pin at 1, unsafe for the pin at 0. -/
def Code.input {p : Params} : Code p → Input
  | .request w => .edge (unpackReq p w)
  | .pin w => .edge { rst := w, reqValid := 0, rowCount := 0, row0Len := 0, row0Bits := 0 }
  | .frame w => .call (some [rowOfFrame w])

end Sys2Proof
end

