-- ==== Sys2Proof/Machine/Flags.lean ====
section
/-!
DEFINITION. The two one-line status computations: the polarity of the battery flag (41_extraction.md
R92) and the code of a failure in `rsp_status` (10_state.md R28, 60_exceptions.md R121, R122). The
block has no other flag (R23).
-/

namespace Sys2Proof.Machine

/-- `INVERT`: `battery_ok <- 1 - battery_raw` on one bit (R92). -/
def invert (batteryRaw : Bit) : Bit := 1 - batteryRaw

/-- `rsp_status` of a success (R28). -/
def statusOk : BitVec 2 := 0

/-- `rsp_status` of a failure (R28, D10). -/
def statusOf : DecodeError → BitVec 2
  | .wrongRowCount => 1
  | .wrongLength => 2

end Sys2Proof.Machine
end

