-- ==== Sys2Proof/Machine/Operands.lean ====
section
/-!
DEFINITION. The fields of a frame and the record made of them (30_encoding.md R66, 41_extraction.md
R91, R93, R94, R95).
-/

namespace Sys2Proof.Machine

/-- `GET_BATT`: `battery_raw <- data[4]` (R91). -/
def getBatt (data : FrameData) : Bit := data.extractLsb' 4 1

/-- `GET_ID`: `id <- data[3:0]`, as received, not reversed (R93). Its bits are the transmitter's
switches 4, 3, 2, 1 from the most significant down (R98). -/
def getId (data : FrameData) : BitVec 4 := data.extractLsb' 0 4

/-- `preamble = data[8:5]` (R66), which no result uses (R94). -/
def getPreamble (data : FrameData) : BitVec 4 := data.extractLsb' 5 4

/-- `MAKE`: the record, with the constant model string (R95). -/
def make (id : BitVec 4) (batteryOk : Bit) : DecodedMessage :=
  { model := Config.modelString, id := id.toFin, batteryOk := batteryOk.toFin }

end Sys2Proof.Machine
end

