-- ==== Sys2Proof/Machine/LayerF.lean ====
section
/-!
DEFINITION. Layer F: the pure function `decode` and its optional trace (42_decode_operation.md R105,
R111).
-/

namespace Sys2Proof.Machine

/-- The record of the frame `data` (R105). -/
def messageOf (data : FrameData) : DecodedMessage := make (getId data) (invert (getBatt data))

/-- The four traced values of the frame `data` (R111). -/
def traceOf (data : FrameData) : TraceRecord :=
  { data := data, batteryRaw := getBatt data, batteryOk := invert (getBatt data), id := getId data }

/-- The result that validating and reading come to (R85, R95). -/
def resultOf : Answer → Result
  | .error e => .err e
  | .ok data => .ok (messageOf data)

/-- `decode(in)` (R105). -/
def decodeF (buf : Option BitBuffer) : Result := resultOf (readFrame buf)

/-- The trace record `decode(in)` emits in an instance that has a trace: none on a failure (R111). -/
def traceF (buf : Option BitBuffer) : Option TraceRecord :=
  match readFrame buf with
  | .error _ => none
  | .ok data => some (traceOf data)

end Sys2Proof.Machine
end

