-- ==== Sys2Proof/Machine/State.lean ====
section
/-!
DEFINITION. The state of one instance of the block, and the state right after reset (10_state.md R28,
R29, R34). `MODEL` and `DESC.*` are hard-wired (R27, R32): `Config`, read through `outputs`
(DEDUCED, log 14, safe). One State is one instance (R134; DEDUCED, log 17, safe). The block has no
memory (R41; DEDUCED, log 11, safe) and no counter of any kind (R131).
-/

namespace Sys2Proof.Machine

structure State where
  /-- The response register `RSP` (R28). -/
  rsp : RspWord
  /-- The trace register `TRC`; `none` is the instance built with `HAS_TRACE = 0`, which has no such
  register (R29). DEDUCED (log 6). Unsafe. -/
  trc : Option TrcWord
  /-- The widths this instance was built with; no operation writes them (R11). DESIGN CHOICE (log 7).
  Safe. -/
  params : Params
  /-- What the upstream caller will do, oldest first; one entry a step (R14, R150). DESIGN CHOICE
  (log 1). Safe. -/
  inputs : List Input
  /-- The model's own field: the result the most recent Layer F call handed to its caller (R105). No
  operation reads it. DESIGN CHOICE (log 4). Unsafe. -/
  returned : Option Result
  /-- The model's own field: the trace record of the most recent Layer F call (R111). No operation
  reads it. DESIGN CHOICE (log 4). Unsafe. -/
  emitted : Option TraceRecord
deriving DecidableEq, Repr

/-- There is no fault: both failures are ordinary results (R123), and no other exception exists
(R124). So no constructor: nobody raises one. DEDUCED (log 16). Unsafe. -/
inductive Fault where
deriving DecidableEq, Repr

/-- Why a step has no meaning. -/
inductive Refusal where
  /-- Raised by `exec` alone, in the arm of an instruction without a meaning; no arm is left that
  does. Safe: the model stops. -/
  | notModelled (mnemonic : String)
deriving DecidableEq, Repr

/-- The instance has a trace register: the parameter `HAS_TRACE` (R11, R29). -/
def State.hasTrace (s : State) : Bool := s.trc.isSome

/-- Right after reset (R34), at the default parameters (R11, logs 6 and 7), with nothing yet asked of
the block (DESIGN CHOICE, logs 1 and 4). Before the first edge a real block shows anything (U7,
log 9). -/
def State.reset : State :=
  { rsp := 0x00, trc := some 0x0000, params := Params.default, inputs := [], returned := none,
    emitted := none }

end Sys2Proof.Machine
end

