-- ==== Sys2Proof/Machine/Ops.lean ====
section
/-!
DEFINITION. The named operations over the state: the words of `RSP` and `TRC`, writing the two
registers, answering a request, reporting a typed failure (60_exceptions.md R126; there is nothing to
return from, R128), the result of a Layer F call, and what the sink can see (10_state.md R28 to R33).
-/

namespace Sys2Proof.Machine

/-- `{rsp_valid, rsp_status, rsp_id, rsp_battery_ok}` (R63). -/
def rspWord (valid : Bit) (status : BitVec 2) (id : BitVec 4) (batteryOk : Bit) : RspWord :=
  valid ++ status ++ id ++ batteryOk

/-- `{trc_valid, trc_data, trc_battery_raw, trc_battery_ok, trc_id}` (R64). -/
def trcWord (valid : Bit) (data : FrameData) (batteryRaw batteryOk : Bit) (id : BitVec 4) :
    TrcWord :=
  valid ++ data ++ batteryRaw ++ batteryOk ++ id

/-- The trace word of a successful decode of `data` (R106). -/
def traceWord (data : FrameData) : TrcWord :=
  trcWord 1 data (getBatt data) (invert (getBatt data)) (getId data)

/-- The response word of a successful decode of `data` (R106). -/
def acceptWord (data : FrameData) : RspWord :=
  rspWord 1 statusOk (getId data) (invert (getBatt data))

/-- The response word of a typed failure: its code and a zero payload (R106, R121, R122, D11). -/
def failWord (e : DecodeError) : RspWord := rspWord 1 (statusOf e) 0 0

/-- The response word of an answer, `0x00` where there is no response (R28, R106). -/
def answerWord : Option Answer → RspWord
  | none => 0x00
  | some (.error e) => failWord e
  | some (.ok data) => acceptWord data

/-- The trace word of what was traced, `0x0000` where nothing was (R29, R111). -/
def tracedWord : Option FrameData → TrcWord
  | none => 0x0000
  | some data => traceWord data

/-- `RSP <- w`. -/
def State.setRsp (s : State) (w : RspWord) : State := { s with rsp := w }

/-- `TRC <- w`, which does nothing in an instance without the register (R106, R108). -/
def State.setTrc (s : State) (w : TrcWord) : State := { s with trc := s.trc.map (fun _ => w) }

/-- No response and no trace in the coming cycle (R107, R108). -/
def State.clear (s : State) : State := (s.setRsp 0x00).setTrc 0x0000

/-- Answer a well-shaped request (R106, class `DECODE.OK`). -/
def State.accept (s : State) (data : FrameData) : State :=
  (s.setRsp (acceptWord data)).setTrc (traceWord data)

/-- Report a typed failure at the ports: its code, a zero payload and no trace (R106, R121, R122,
R126). It saves nothing and goes nowhere. -/
def State.fail (s : State) (e : DecodeError) : State :=
  (s.setRsp (failWord e)).setTrc 0x0000

/-- Hand a result, and the trace record if the instance has a trace, to the caller of a Layer F call
(R105, R111, R112). No edge of `clk` happens, so `RSP` and `TRC` keep their values (R31).
DEDUCED (log 4). Unsafe. -/
def State.deliver (s : State) (r : Result) (t : Option TraceRecord) : State :=
  { s with returned := some r, emitted := if s.hasTrace then t else none }

/-- An edge whose inputs were not stable: both registers take the free legal values this edge drew
(U4). The draw is the act's own, so neither another edge nor another instance shares it (R134).
DESIGN CHOICE (log 8). Safe. -/
def State.drawResponse (s : State) (d : EdgeDraw) : State :=
  (s.setRsp (answerWord d.answer)).setTrc (tracedWord d.trace)

/-- What the caller does next; with nothing left it presents no request. DESIGN CHOICE (log 2).
Unsafe. -/
def State.nextInput (s : State) : Input := s.inputs.headD (.edge idlePorts)

/-- The input has been taken. -/
def State.consume (s : State) : State := { s with inputs := s.inputs.tail }

/-- Put an input before all others. -/
def State.offer (s : State) (x : Input) : State := { s with inputs := x :: s.inputs }

/-- The trace fields of the output ports (R31). -/
structure TraceOutputs where
  trcValid : Bit
  trcData : FrameData
  trcBatteryRaw : Bit
  trcBatteryOk : Bit
  trcId : BitVec 4
deriving DecidableEq, Repr

/-- The output ports and the constants the block exposes (R27, R31, R32). -/
structure Outputs where
  rspValid : Bit
  rspStatus : BitVec 2
  rspId : BitVec 4
  rspBatteryOk : Bit
  trace : Option TraceOutputs
  model : BitVec 128
  desc : Descriptor
deriving DecidableEq, Repr

/-- `rsp_valid` (R28). -/
def rspValid (w : RspWord) : Bit := w.extractLsb' 7 1

/-- `rsp_status` (R28). -/
def rspStatus (w : RspWord) : BitVec 2 := w.extractLsb' 5 2

/-- `rsp_id` (R28). -/
def rspId (w : RspWord) : BitVec 4 := w.extractLsb' 1 4

/-- `rsp_battery_ok` (R28). -/
def rspBatteryOk (w : RspWord) : Bit := w.extractLsb' 0 1

/-- The fields of a trace word (R29). -/
def traceOutputs (w : TrcWord) : TraceOutputs :=
  { trcValid := w.extractLsb' 15 1
    trcData := w.extractLsb' 6 9
    trcBatteryRaw := w.extractLsb' 5 1
    trcBatteryOk := w.extractLsb' 4 1
    trcId := w.extractLsb' 0 4 }

/-- What the sink sees during the cycle (R31, R109). -/
def outputs (s : State) : Outputs :=
  { rspValid := rspValid s.rsp
    rspStatus := rspStatus s.rsp
    rspId := rspId s.rsp
    rspBatteryOk := rspBatteryOk s.rsp
    trace := s.trc.map traceOutputs
    model := Config.model
    desc := Config.desc }

/-- How a reader of `RSP` takes a word: three result kinds, no response, or a word the block never
produces (R72, U5). -/
inductive RspReading where
  | noResponse
  | response (r : Result)
  | invalid
deriving DecidableEq, Repr

/-- The total decoder of response words (R28, R72, U5). -/
def readRsp (w : RspWord) : RspReading :=
  if w = 0x00 then .noResponse
  else if w = 0xA0 then .response (.err .wrongRowCount)
  else if w = 0xC0 then .response (.err .wrongLength)
  else if rspValid w = 1 ∧ rspStatus w = statusOk then
    .response (.ok (make (rspId w) (rspBatteryOk w)))
  else .invalid

/-- The record the sink takes in this cycle: none unless the response is valid and `Ok` (R149). -/
def sinkRecord (s : State) : Option DecodedMessage :=
  match readRsp s.rsp with
  | .response (.ok m) => some m
  | .response (.err _) => none
  | .noResponse => none
  | .invalid => none

end Sys2Proof.Machine
end

