-- ==== Sys2Proof/Machine/Frame.lean ====
section
/-!
DEFINITION. The meaning of the frame space: `decode` of a well-shaped buffer (42_decode_operation.md
R105), and the return of a typed failure for a buffer of another shape (60_exceptions.md R126).
That this row is the Layer F call is DEDUCED (log 5). Unsafe.
-/

namespace Sys2Proof.Machine

/-- `FM231.FRAME` (R105, R69): the record of the frame, and its trace. -/
def execFrame (data : FrameData) (s : State) : Host.Outcome State Fault Refusal :=
  .next (s.deliver (.ok (messageOf data)) (some (traceOf data)))

/-- A Layer F call on a buffer that is no frame: the failure is returned to the caller, nothing is
traced (R105, R111, R126). -/
def returnFailure (e : DecodeError) (s : State) : Host.Outcome State Fault Refusal :=
  .next (s.deliver (.err e) none)

/-- A Layer F call whose buffer was mutated during the call: the caller gets the free result this call
drew, and no register changes (R49, R147, U4). DESIGN CHOICE (log 18). Safe. -/
def returnDrawn (d : CallDraw) (s : State) : Host.Outcome State Fault Refusal :=
  .next (s.deliver (resultOf d.answer) (d.trace.map traceOf))

end Sys2Proof.Machine
end

