-- ==== Sys2Proof/Machine/Request.lean ====
section
/-!
DEFINITION. The meanings of the request space: `IDLE` and the three outcome classes of `DECODE`
(42_decode_operation.md R106, R107). Ignored fields (R73) are no operands.
-/

namespace Sys2Proof.Machine

/-- `IDLE` (R107). -/
def execIdle (s : State) : Host.Outcome State Fault Refusal := .next s.clear

/-- `DECODE.OK` (R106): `data <- row0_bits`. -/
def execDecodeOk (row0Bits : FrameData) (s : State) : Host.Outcome State Fault Refusal :=
  .next (s.accept row0Bits)

/-- `DECODE.WRONGLEN` (R106, R122). -/
def execDecodeWrongLen (s : State) : Host.Outcome State Fault Refusal := .next (s.fail .wrongLength)

/-- `DECODE.WRONGROWS` (R106, R121). -/
def execDecodeWrongRows (s : State) : Host.Outcome State Fault Refusal :=
  .next (s.fail .wrongRowCount)

end Sys2Proof.Machine
end

