-- ==== Sys2Proof/Machine/ResetCycle.lean ====
section
/-!
DEFINITION. The meaning of the pin space: the `RESET` cycle (42_decode_operation.md R108).
-/

namespace Sys2Proof.Machine

/-- `RESET` (R108). -/
def execReset (s : State) : Host.Outcome State Fault Refusal := .next s.clear

end Sys2Proof.Machine
end

