-- ==== Sys2Proof/Machine/Dispatch.lean ====
section
/-!
DEFINITION. One arm per row of spec/opcode_table.json, each a call of that row's meaning.
-/

namespace Sys2Proof.Machine

def exec (i : Instr) (s : State) : Host.Outcome State Fault Refusal :=
  match i with
  | .idle _ _ _ => Sys2Proof.Machine.execIdle s
  | .decodeOk row0Bits => Sys2Proof.Machine.execDecodeOk row0Bits s
  | .decodeWrongLen _ _ => Sys2Proof.Machine.execDecodeWrongLen s
  | .decodeWrongRows _ _ _ => Sys2Proof.Machine.execDecodeWrongRows s
  | .reset => Sys2Proof.Machine.execReset s
  | .frame data => Sys2Proof.Machine.execFrame data s

end Sys2Proof.Machine
end

