-- ==== Sys2Proof/Machine/Step.lean ====
section
/-!
DEFINITION. One step: the caller's next act, and the block's answer to it (42_decode_operation.md
R109 for an edge, R105 for a call; U4 for either with inputs that change during it). The block fetches nothing
(R22): the act itself says what runs.
-/

namespace Sys2Proof.Machine

def step (s : State) : Host.Outcome State Fault Refusal :=
  match s.nextInput with
  | .edge ports => exec (decodePorts ports) s.consume
  | .call buf =>
    match decodeBuffer buf with
    | .ok i => exec i s.consume
    | .error e => returnFailure e s.consume
  | .unstable d => .next (s.consume.drawResponse d)
  | .unstableCall d => returnDrawn d s.consume

/-- The state in which the caller's next act is the one that the opcode-table number `w` stands for;
a number of no format changes nothing. The pin at 0, which decodes to no instruction, places an edge
with `rst = 0` and no request, an idle one. DESIGN CHOICE (log 3). -/
def State.withFetchWord (s : State) (nbits w : Nat) : State :=
  match codeOfNumber nbits w with
  | .ok c => s.offer c.input
  | .error _ => s

end Sys2Proof.Machine
end

