-- ==== Sys2Proof/Machine/Lines.lean ====
section
/-!
DEFINITION. The spec's line form of requests, one line a clock cycle (30_encoding.md R75), as data:
the caller's acts that a program of such lines stands for.
-/

namespace Sys2Proof.Machine

/-- A line of R75. -/
inductive Line where
  /-- `RESET`, with what the ignored request ports hold (R108, R75). -/
  | reset (held : Ports)
  /-- `IDLE n`. -/
  | idle (n : Nat)
  /-- `DECODE <buffer> x n`. -/
  | decode (buf : Option BitBuffer) (n : Nat)
deriving DecidableEq, Repr

/-- The edges a line stands for in an instance of widths `p`. -/
def Line.inputs (p : Params) : Line → List Input
  | .reset held => [.edge { held with rst := 1 }]
  | .idle n => List.replicate n (.edge idlePorts)
  | .decode buf n => List.replicate n (.edge (present p buf))

/-- The edges of a program. -/
def programInputs (p : Params) (lines : List Line) : List Input :=
  lines.flatMap (fun l => l.inputs p)

end Sys2Proof.Machine
end

