-- ==== Sys2Proof/WellFormed.lean ====
section
/-!
DEFINITION. Which instructions and which port values an instance of widths `p` can be given
(10_state.md R30, 30_encoding.md R62, R68).
-/

namespace Sys2Proof

/-- Why an instruction is not one the ports can carry. -/
inductive IllFormed where
  /-- `row_count` does not fit its port of `W_ROWS` bits (R30). -/
  | rowCountTooWide
  /-- `row0_len` does not fit its port of `W_LEN` bits (R30). -/
  | row0LenTooWide
  /-- A `DECODE.WRONGLEN` of length 9 is `DECODE.OK` (R68). -/
  | lengthIsNine
  /-- A `DECODE.WRONGROWS` of one row is one of the other two classes (R68). -/
  | rowCountIsOne
deriving DecidableEq, Repr

/-- The first check the instruction fails, `none` if it is well formed. -/
def Instr.check (p : Params) : Instr → Option IllFormed
  | .idle rowCount row0Len _ =>
    if 2 ^ p.wRows ≤ rowCount then some .rowCountTooWide
    else if 2 ^ p.wLen ≤ row0Len then some .row0LenTooWide
    else none
  | .decodeOk _ => none
  | .decodeWrongLen row0Len _ =>
    if 2 ^ p.wLen ≤ row0Len then some .row0LenTooWide
    else if row0Len = Config.frameBits then some .lengthIsNine
    else none
  | .decodeWrongRows rowCount row0Len _ =>
    if 2 ^ p.wRows ≤ rowCount then some .rowCountTooWide
    else if 2 ^ p.wLen ≤ row0Len then some .row0LenTooWide
    else if rowCount = Config.requiredRows then some .rowCountIsOne
    else none
  | .reset => none
  | .frame _ => none

/-- The instruction passes every check. -/
abbrev Instr.wf (p : Params) (i : Instr) : Prop := i.check p = none

/-- The counts fit the ports (R30). -/
abbrev Ports.fits (p : Params) (q : Ports) : Prop :=
  q.rowCount < 2 ^ p.wRows ∧ q.row0Len < 2 ^ p.wLen

/-- An input the caller can give an instance of widths `p`. -/
abbrev Input.fits (p : Params) : Input → Prop
  | .edge q => q.fits p
  | .call _ => True
  | .unstable _ => True
  | .unstableCall _ => True

end Sys2Proof
end

