-- ==== Sys2Proof/Safety.lean ====
section
/-!
DEFINITION. What a safe state is: the registers hold only words the spec says appear (10_state.md
R28, R29; 30_encoding.md R72), the instance has legal widths (R11), the caller's acts fit its ports
(R30), and the last returned record is one `decode` makes (R95, R111).
-/

namespace Sys2Proof.Machine

/-- The 35 words of `RSP` that ever appear (R28, R72). -/
abbrev legalRsp (w : RspWord) : Prop := w = 0x00 ∨ (0x80 ≤ w ∧ w ≤ 0x9F) ∨ w = 0xA0 ∨ w = 0xC0

/-- The 513 words of `TRC` that ever appear (R72). -/
abbrev legalTrc (w : TrcWord) : Prop := w = 0x0000 ∨ w = traceWord (w.extractLsb' 6 9)

/-- A result of `decode`: the record carries the constant model string (R95). -/
abbrev legalResult : Result → Prop
  | .ok m => m.model = Config.modelString
  | .err _ => True

/-- A trace record of `decode` (R111). -/
abbrev legalRecord (t : TraceRecord) : Prop := t = traceOf t.data

/-- The invariant. -/
structure State.Inv (s : State) : Prop where
  params : s.params.wf
  rsp : legalRsp s.rsp
  trc : ∀ w ∈ s.trc, legalTrc w
  inputs : ∀ x ∈ s.inputs, x.fits s.params
  returned : ∀ r ∈ s.returned, legalResult r
  emitted : ∀ t ∈ s.emitted, legalRecord t

/-- The ports `q` present the buffer truthfully to an instance of widths `p` (R30, R148): the counts
are the true ones or the port's largest value, and the frame bits are those of row 0. Ports that
R30 ignores hold anything (U3). -/
structure Presents (p : Params) (buf : Option BitBuffer) (q : Ports) : Prop where
  rst : q.rst = 0
  reqValid : q.reqValid = 1
  rowCount : q.rowCount = min (rows buf) (2 ^ p.wRows - 1)
  row0Len : ∀ h : 0 < rows buf, rows buf = 1 → q.row0Len = min (len buf 0 h) (2 ^ p.wLen - 1)
  row0Bits : ∀ h : 0 < rows buf, rows buf = 1 → len buf 0 h = 9 →
    ∀ (k : Nat) (hk : k < len buf 0 h), q.row0Bits.getLsbD (8 - k) = (bitRead buf 0 k h hk == 1)

end Sys2Proof.Machine
end

