-- ==== Sys2Proof/Certificates/Slice0/Obligations.lean ====
section
/-!
DEFINITION. The statements for the provers, from the numbered rules of spec/.
-/

open Sys2Proof Sys2Proof.Machine

/-! ### The bit buffer and the pure function -/

/-- R43: in `MemRead((r,k), n)` the bit of weight `2^(n-1-j)` is `BitRead(r, k+j)`. -/
def Obligations.ReadIsMostSignificantBitFirst : Prop :=
  ∀ (buf : Option BitBuffer) (r k n : Nat) (h : r < rows buf) (hk : k + n ≤ len buf r h)
    (j : Nat) (hj : j < n),
    (memRead buf r k n h hk).getLsbD (n - 1 - j) = (bitRead buf r (k + j) h (by omega) == 1)

/-- R65: `data` is assembled from the nine frame bits by weight; at the ports `row0_bits` is it. -/
def Obligations.FrameAssembledByWeight : Prop :=
  ∀ (f0 f1 f2 f3 f4 f5 f6 f7 f8 : Bit) (p : Params),
    ∃ data : FrameData, readFrame (some [[f0, f1, f2, f3, f4, f5, f6, f7, f8]]) = .ok data ∧
      data.toNat = f0.toNat * 256 + f1.toNat * 128 + f2.toNat * 64 + f3.toNat * 32 +
        f4.toNat * 16 + f5.toNat * 8 + f6.toNat * 4 + f7.toNat * 2 + f8.toNat * 1 ∧
      data.toNat ≤ 511 ∧
      (present p (some [[f0, f1, f2, f3, f4, f5, f6, f7, f8]])).row0Bits = data

/-- R66: the fields are cut from `data` at fixed positions. -/
def Obligations.FieldsCutAtFixedPositions : Prop :=
  ∀ data : FrameData,
    (∀ j, j < 4 → (getPreamble data).getLsbD j = data.getLsbD (5 + j)) ∧
    (getBatt data).getLsbD 0 = data.getLsbD 4 ∧
    (∀ j, j < 4 → (getId data).getLsbD j = data.getLsbD j) ∧
    (getBatt data).zeroExtend 9 = (data >>> 4) &&& 1 ∧
    (getId data).zeroExtend 9 = data &&& 0xF

/-- R81, in both layers: `WrongRowCount` exactly when the row count is not 1, whatever else the
buffer or the ports hold; nothing is traced. -/
def Obligations.RowCountFailureExactly : Prop :=
  (∀ buf : Option BitBuffer,
    (decodeF buf = .err .wrongRowCount ↔ rows buf ≠ 1) ∧ (rows buf ≠ 1 → traceF buf = none)) ∧
  rows none = 0 ∧
  (∀ (q : Ports) (s : State), q.rst = 0 → q.reqValid = 1 →
    ∃ t : State, exec (decodePorts q) s = .next t ∧ (t.rsp = 0xA0 ↔ q.rowCount ≠ 1) ∧
      (q.rowCount ≠ 1 → t.trc = s.trc.map (fun _ => 0x0000)))

/-- R82, in both layers: `WrongLength` exactly when there is one row and it is not nine bits long. -/
def Obligations.LengthFailureExactly : Prop :=
  (∀ buf : Option BitBuffer,
    (decodeF buf = .err .wrongLength ↔ ∃ h : 0 < rows buf, rows buf = 1 ∧ len buf 0 h ≠ 9) ∧
    (decodeF buf = .err .wrongLength → traceF buf = none)) ∧
  (∀ (q : Ports) (s : State), q.rst = 0 → q.reqValid = 1 →
    ∃ t : State, exec (decodePorts q) s = .next t ∧
      (t.rsp = 0xC0 ↔ q.rowCount = 1 ∧ q.row0Len ≠ 9) ∧
      (t.rsp = 0xC0 → t.trc = s.trc.map (fun _ => 0x0000)))

/-- R105 for a well-shaped buffer: `decode` never fails, and gives the record and the trace of the
value its nine bits write, first bit most significant. -/
def Obligations.WellShapedBufferDecodes : Prop :=
  ∀ (buf : Option BitBuffer) (h : 0 < rows buf), rows buf = 1 → (hl : len buf 0 h = 9) →
    ∃ (data : FrameData) (m : DecodedMessage),
      (∀ (k : Nat) (hk : k < 9), data.getLsbD (8 - k) = (bitRead buf 0 k h (by omega) == 1)) ∧
      decodeF buf = .ok m ∧ m.model = "MightyMule-FM231" ∧ m.id.val = data.toNat % 16 ∧
      m.batteryOk.val = 1 - data.toNat / 16 % 2 ∧
      ∃ tr, traceF buf = some tr ∧ tr.data = data ∧ tr.batteryRaw.toNat = data.toNat / 16 % 2 ∧
        tr.batteryOk.toNat = m.batteryOk.val ∧ tr.id.toNat = m.id.val

/-- R97: what the result depends on. -/
def Obligations.ResultIsLowFiveBits : Prop :=
  (∀ data : FrameData, ∃ m, decodeF (some [rowOfFrame data]) = .ok m ∧
    m.id.val = data.toNat % 16 ∧ m.batteryOk.val = 1 - data.toNat / 16 % 2 ∧
    data.toNat % 32 = 16 * (1 - m.batteryOk.val) + m.id.val) ∧
  (∀ data data' : FrameData,
    decodeF (some [rowOfFrame data]) = decodeF (some [rowOfFrame data']) ↔
      data.toNat % 32 = data'.toNat % 32) ∧
  (∀ (i : Fin 16) (k : Fin 2), ∃ data : FrameData, data.toNat < 32 ∧
    decodeF (some [rowOfFrame data]) = .ok ⟨"MightyMule-FM231", i, k⟩)

/-- R94: the preamble reaches the trace and nothing else. -/
def Obligations.PreambleReachesTraceOnly : Prop :=
  ∀ (data data' : FrameData) (s : State), (∀ j, j < 5 → data.getLsbD j = data'.getLsbD j) →
    ∃ t t' : State, exec (.decodeOk data) s = .next t ∧ exec (.decodeOk data') s = .next t' ∧
      decodeF (some [rowOfFrame data]) = decodeF (some [rowOfFrame data']) ∧ t.rsp = t'.rsp ∧
      (∀ w ∈ t.trc, w.extractLsb' 6 9 = data) ∧ (∀ w ∈ t'.trc, w.extractLsb' 6 9 = data') ∧
      (traceF (some [rowOfFrame data])).map (fun tr => tr.data) = some data

/-- R43's informative packed reading. The packing is the spec's general knowledge (log 15). -/
def Obligations.PackedBytesReadAsFormula : Prop :=
  ∀ byte0 byte1 : BitVec 8,
    readFrame (some [packedRow byte0 byte1]) =
      .ok ((byte0.zeroExtend 9 <<< 1) ||| (byte1 >>> 7).zeroExtend 9)

/-! ### What each instruction does -/

/-- R107: an `IDLE`, with anything on the ignored ports, clears both registers, changes nothing else,
and is no call. -/
def Obligations.IdleClearsRegisters : Prop :=
  (∀ (s : State) (rowCount row0Len : Nat) (row0Bits : FrameData),
    exec (.idle rowCount row0Len row0Bits) s =
      .next { s with rsp := 0x00, trc := s.trc.map (fun _ => 0x0000) }) ∧
  (∀ (s : State) (q : Ports) (rest : List Input), s.inputs = .edge q :: rest → q.rst = 0 →
    q.reqValid = 0 →
    step s = .next { s with inputs := rest, rsp := 0x00, trc := s.trc.map (fun _ => 0x0000) })

/-- R106: the three outcomes of a `DECODE` edge, at the values the registers take. -/
def Obligations.DecodeEdgeAnswers : Prop :=
  ∀ (s : State) (q : Ports) (rest : List Input), s.inputs = .edge q :: rest → q.rst = 0 →
    q.reqValid = 1 →
    (q.rowCount ≠ 1 →
      step s = .next { s with inputs := rest, rsp := 0xA0, trc := s.trc.map (fun _ => 0x0000) }) ∧
    (q.rowCount = 1 → q.row0Len ≠ 9 →
      step s = .next { s with inputs := rest, rsp := 0xC0, trc := s.trc.map (fun _ => 0x0000) }) ∧
    (q.rowCount = 1 → q.row0Len = 9 →
      ∃ (r : RspWord) (c : TrcWord),
        step s = .next { s with inputs := rest, rsp := r, trc := s.trc.map (fun _ => c) } ∧
        rspValid r = 1 ∧ rspStatus r = 0 ∧ (rspId r).toNat = q.row0Bits.toNat % 16 ∧
        (rspBatteryOk r).toNat = 1 - q.row0Bits.toNat / 16 % 2 ∧
        r.toNat = 0x80 + 2 * (rspId r).toNat + (rspBatteryOk r).toNat ∧
        c = 1#1 ++ q.row0Bits ++ q.row0Bits.extractLsb' 4 1 ++
          (1 - q.row0Bits.extractLsb' 4 1) ++ q.row0Bits.extractLsb' 0 4)

/-- R106, class `DECODE.OK`, as the instruction: both words as numbers, and nothing else changed. -/
def Obligations.DecodeOkWritesBothWords : Prop :=
  ∀ (s : State) (data : FrameData),
    ∃ (r : RspWord) (c : TrcWord),
      exec (.decodeOk data) s = .next { s with rsp := r, trc := s.trc.map (fun _ => c) } ∧
      r.toNat = 0x80 + 2 * (data.toNat % 16) + (1 - data.toNat / 16 % 2) ∧
      c.toNat = 0x8000 + 64 * data.toNat + 32 * (data.toNat / 16 % 2) +
        16 * (1 - data.toNat / 16 % 2) + data.toNat % 16

/-- R106, R121, R122 as instructions: a typed failure is its code with a zero payload, no trace, and
nothing else changed. -/
def Obligations.FailedDecodesWriteTheirCode : Prop :=
  ∀ (s : State) (rowCount row0Len : Nat) (row0Bits : FrameData),
    exec (.decodeWrongRows rowCount row0Len row0Bits) s =
      .next { s with rsp := 0xA0, trc := s.trc.map (fun _ => 0x0000) } ∧
    exec (.decodeWrongLen row0Len row0Bits) s =
      .next { s with rsp := 0xC0, trc := s.trc.map (fun _ => 0x0000) }

/-- R108: a `RESET` cycle wins over any request, clears both registers, and does what `IDLE` does. -/
def Obligations.ResetWinsAndClears : Prop :=
  (∀ s : State, exec .reset s =
    .next { s with rsp := 0x00, trc := s.trc.map (fun _ => 0x0000) }) ∧
  (∀ (s : State) (q : Ports) (rest : List Input), s.inputs = .edge q :: rest → q.rst = 1 →
    step s = .next { s with inputs := rest, rsp := 0x00, trc := s.trc.map (fun _ => 0x0000) }) ∧
  (∀ (s : State) (rowCount row0Len : Nat) (row0Bits : FrameData),
    exec .reset s = exec (.idle rowCount row0Len row0Bits) s)

/-- R105, R69 as the instruction of the frame space: the caller gets the record and, in an instance
with a trace, the trace record. The model's readings: that this row is the Layer F call (log 5), that
no register changes (log 4), and that the trace is there when `TRC` is (log 6). -/
def Obligations.FrameReturnsRecord : Prop :=
  ∀ (s : State) (data : FrameData),
    ∃ (m : DecodedMessage) (tr : TraceRecord),
      exec (.frame data) s =
        .next { s with returned := some (.ok m), emitted := if s.trc.isSome then some tr else none } ∧
      m.model = "MightyMule-FM231" ∧ m.id.val = data.toNat % 16 ∧
      m.batteryOk.val = 1 - data.toNat / 16 % 2 ∧
      tr.data = data ∧ tr.batteryRaw.toNat = data.toNat / 16 % 2 ∧
      tr.batteryOk.toNat = 1 - data.toNat / 16 % 2 ∧ tr.id.toNat = data.toNat % 16

/-- What every instruction leaves unchanged: the widths, the caller's coming acts (its buffers
included), the existence of the trace register; a clocked instruction leaves what was returned to
a Layer F caller, and a frame leaves both registers. That the two layers keep each other's fields is the
model's reading (log 4): the spec has no machine with both. -/
def Obligations.InstructionsLeaveTheRest : Prop :=
  ∀ (i : Instr) (s t : State), exec i s = .next t →
    t.params = s.params ∧ t.inputs = s.inputs ∧
    t.trc.isSome = s.trc.isSome ∧
    match i with
    | .idle _ _ _ => t.returned = s.returned ∧ t.emitted = s.emitted
    | .decodeOk _ => t.returned = s.returned ∧ t.emitted = s.emitted
    | .decodeWrongLen _ _ => t.returned = s.returned ∧ t.emitted = s.emitted
    | .decodeWrongRows _ _ _ => t.returned = s.returned ∧ t.emitted = s.emitted
    | .reset => t.returned = s.returned ∧ t.emitted = s.emitted
    | .frame _ => t.rsp = s.rsp ∧ t.trc = s.trc

/-- R64: the layout of the trace word of a successful decode, and that it repeats itself. -/
def Obligations.TraceWordRepeatsItself : Prop :=
  ∀ (s : State) (data : FrameData), s.trc.isSome →
    ∃ (t : State) (w : TrcWord), exec (.decodeOk data) s = .next t ∧ t.trc = some w ∧
      w = 1#1 ++ data ++ data.extractLsb' 4 1 ++ (1 - data.extractLsb' 4 1) ++
        data.extractLsb' 0 4 ∧
      w.getLsbD 5 = w.getLsbD 10 ∧ w.getLsbD 4 = !w.getLsbD 5 ∧
      w.extractLsb' 0 4 = w.extractLsb' 6 4

/-- R73: the don't-care fields, (a) to (e). In (a) the two next states agree in everything but
`TRC[14:11]`, the preamble's place in the trace (R94, R111); in (b) to (e) they are the same. -/
def Obligations.IgnoredFieldsChangeNothing : Prop :=
  (∀ (s : State) (pre pre' : BitVec 4) (low : BitVec 5),
    ∃ t t' : State, exec (.decodeOk (pre ++ low)) s = .next t ∧
      exec (.decodeOk (pre' ++ low)) s = .next t' ∧ { t with trc := t'.trc } = t' ∧
      t.trc.isSome = t'.trc.isSome ∧
      ∀ w ∈ t.trc, ∀ w' ∈ t'.trc, w &&& 0x87FF = w' &&& 0x87FF ∧ w.extractLsb' 11 4 = pre ∧
        w'.extractLsb' 11 4 = pre') ∧
  (∀ (s : State) (q : Ports) (b : FrameData), q.rst = 0 → q.reqValid = 1 →
    (q.rowCount ≠ 1 ∨ q.row0Len ≠ 9) →
    exec (decodePorts { q with row0Bits := b }) s = exec (decodePorts q) s) ∧
  (∀ (s : State) (q : Ports) (n : Nat) (b : FrameData), q.rst = 0 → q.reqValid = 1 →
    q.rowCount ≠ 1 →
    exec (decodePorts { q with row0Len := n, row0Bits := b }) s = exec (decodePorts q) s) ∧
  (∀ (s : State) (q : Ports) (k n : Nat) (b : FrameData), q.rst = 0 → q.reqValid = 0 →
    exec (decodePorts { q with rowCount := k, row0Len := n, row0Bits := b }) s =
      exec (decodePorts q) s) ∧
  (∀ (s : State) (q q' : Ports), q.rst = 1 → q'.rst = 1 →
    exec (decodePorts q) s = exec (decodePorts q') s)

/-! ### Encoding -/

/-- R68: the operation map by match and mask, first match wins, selects the class that the values of
`row_count` and `row0_len` give, at every legal pair of widths; at the default widths its words are the
spec's. -/
def Obligations.OperationMapSelectsClass : Prop :=
  (∀ (p : Params) (w : BitVec p.reqWidth), p.wf →
    classOfWord p w = some
      (if (unpackReq p w).reqValid = 0 then .idle
       else if (unpackReq p w).rowCount = 1 ∧ (unpackReq p w).row0Len = 9 then .ok
       else if (unpackReq p w).rowCount = 1 then .wrongLen
       else .wrongRows) ∧
    classOfWord p w = (decodePorts (unpackReq p w)).reqClass) ∧
  (reqTable Params.default).map (fun r => (r.cls, r.pattern.toNat, r.mask.toNat)) =
    [(.idle, 0x00000000000, 0x20000000000), (.ok, 0x20002001200, 0x3FFFFFFFE00),
     (.wrongLen, 0x20002000000, 0x3FFFE000000), (.wrongRows, 0x20000000000, 0x20000000000)]

/-- Decoding the encoding of a well-formed instruction gives it back, at every legal pair of widths. -/
def Obligations.DecodeInvertsEncode : Prop :=
  ∀ (p : Params) (i : Instr), p.wf → i.wf p → decodeCode p (encode p i) = .ok i

/-- What decodes is well formed, and encoding it gives the word back: no two words decode alike. -/
def Obligations.EncodeInvertsDecode : Prop :=
  ∀ (p : Params) (c : Code p) (i : Instr), decodeCode p c = .ok i → i.wf p ∧ encode p i = c

/-- Words of the spec's own vectors and encodings decode to the instructions they stand for. -/
def Obligations.WrittenOutWordsDecode : Prop :=
  decodeTableWord 42 0b000000000000000010000000000001001110101011 = some (.idle 1 9 0x1AB) ∧
  decodeTableWord 42 0b100000000000000010000000000001001110101011 = some (.decodeOk 0x1AB) ∧
  decodeTableWord 42 0b100000000000000010000000000001000110101010 =
    some (.decodeWrongLen 8 0x1AA) ∧
  decodeTableWord 42 0b100000000000000100000000000001001110101011 =
    some (.decodeWrongRows 2 9 0x1AB) ∧
  decodeTableWord 1 0b1 = some .reset ∧
  decodeTableWord 9 0b110101011 = some (.frame 0x1AB)

/-! ### The machine -/

/-- The acts of the caller are the model's (log 1), and so is a frame as the call's instruction (log 5).
A step runs the decoded instruction on the state from which the act has been taken: the one the
sampled ports select (R109), or the frame of the buffer a call is made on (R105). -/
def Obligations.StepRunsDecodedInstruction : Prop :=
  ∀ (s : State) (rest : List Input),
    (∀ q : Ports, s.inputs = .edge q :: rest →
      step s = exec (decodePorts q) { s with inputs := rest }) ∧
    (∀ (buf : Option BitBuffer) (i : Instr), s.inputs = .call buf :: rest →
      decodeBuffer buf = .ok i → step s = exec i { s with inputs := rest })

/-- The caller's act that stands for an encoded well-formed instruction makes the very next step run
that instruction, at every legal pair of widths. What act an encoding stands for is the model's (logs 1,
5). -/
def Obligations.EncodedInstructionRunsNext : Prop :=
  ∀ (p : Params) (i : Instr) (s : State), p.wf → i.wf p →
    step (s.offer (encode p i).input) = exec i s

/-- A Layer F call on any buffer returns what `decode` gives and, in an instance with a trace, emits
its trace record (R105, R111). The model's readings: that a call on a frame is FM231.FRAME (log 5),
that both registers keep their values (log 4), and that the trace is there when `TRC` is (log 6). -/
def Obligations.CallReturnsDecode : Prop :=
  ∀ (s : State) (buf : Option BitBuffer) (rest : List Input), s.inputs = .call buf :: rest →
    step s = .next { s with
      inputs := rest
      returned := some (decodeF buf)
      emitted := if s.trc.isSome then traceF buf else none }

/-- With no act left, the edge is an idle one. The model's choice (log 2). -/
def Obligations.NoActIsAnIdleEdge : Prop :=
  ∀ s : State, s.inputs = [] →
    step s = .next { s with rsp := 0x00, trc := s.trc.map (fun _ => 0x0000) }

/-- An edge whose inputs were not stable (R147 with 93_implementation_defined.md U4): whatever it drew,
both registers hold legal words and nothing else changes; every pair of legal words can be what it
drew; and each such edge draws afresh, so that two in a row can show any two pairs. The draw, where
D25 also allows a refusal, is the model's choice (log 8). -/
def Obligations.UnstableEdgeShowsSomeLegalWords : Prop :=
  (∀ (d : EdgeDraw) (s : State) (rest : List Input), s.inputs = .unstable d :: rest →
    ∃ (r : RspWord) (c : TrcWord), legalRsp r ∧ legalTrc c ∧
      step s = .next { s with inputs := rest, rsp := r, trc := s.trc.map (fun _ => c) }) ∧
  (∀ (r : RspWord) (c : TrcWord), legalRsp r → legalTrc c →
    ∃ d : EdgeDraw, ∀ (s : State) (rest : List Input), s.inputs = .unstable d :: rest →
      step s = .next { s with inputs := rest, rsp := r, trc := s.trc.map (fun _ => c) }) ∧
  (∀ (r r' : RspWord) (c c' : TrcWord), legalRsp r → legalRsp r' → legalTrc c → legalTrc c' →
    ∃ d d' : EdgeDraw, ∀ (s : State) (rest : List Input),
      s.inputs = .unstable d :: .unstable d' :: rest →
      ∃ t u : State, step s = .next t ∧ step t = .next u ∧ t.rsp = r ∧ u.rsp = r' ∧
        t.trc = s.trc.map (fun _ => c) ∧ u.trc = s.trc.map (fun _ => c'))

/-- A Layer F call whose buffer was mutated during the call (R49, R147 with U4): whatever it drew, the
caller gets some result `decode` can give and, in an instance with a trace, some trace record or none,
and nothing else changes; and every such pair can be what it drew. The draw at Layer F is the model's
choice (log 18), the kept registers are its reading (log 4), and so is the trace's tie to `TRC`
(log 6). -/
def Obligations.UnstableCallReturnsSomeResult : Prop :=
  (∀ (d : CallDraw) (s : State) (rest : List Input), s.inputs = .unstableCall d :: rest →
    ∃ (r : Result) (tr : Option TraceRecord), legalResult r ∧ (∀ x ∈ tr, legalRecord x) ∧
      step s = .next { s with
        inputs := rest, returned := some r, emitted := if s.trc.isSome then tr else none }) ∧
  (∀ (r : Result) (tr : Option TraceRecord), legalResult r → (∀ x ∈ tr, legalRecord x) →
    ∃ d : CallDraw, ∀ (s : State) (rest : List Input), s.inputs = .unstableCall d :: rest →
      step s = .next { s with
        inputs := rest, returned := some r, emitted := if s.trc.isSome then tr else none })

/-- Every step completes: an edge (R109), a call (R105), failed decodes included (R123). That a step
with no act left completes is the model's choice (log 2), and so is that an act with unstable inputs
completes rather than being refused (logs 8 and 18). -/
def Obligations.EveryStepCompletes : Prop := ∀ s : State, ∃ t : State, step s = .next t

/-- R33: the registers' next values are a function of the inputs sampled at the edge alone, whatever
either register (or anything else of the state) held before. -/
def Obligations.NextWordsDependOnInputsAlone : Prop :=
  ∃ g : Ports → RspWord × TrcWord, ∀ (q : Ports) (s : State) (rest : List Input),
    s.inputs = .edge q :: rest →
    ∃ t : State, step s = .next t ∧ t.rsp = (g q).1 ∧ t.trc = s.trc.map (fun _ => (g q).2)

/-- A second request with the same ports, or a second call on the same buffer, is answered as the
first was. That a call's trace is there when `TRC` is, is the model's reading (log 6). -/
def Obligations.RepeatedRequestSameAnswer : Prop :=
  (∀ (s : State) (q : Ports) (rest : List Input), s.inputs = .edge q :: .edge q :: rest →
    ∃ t u : State, step s = .next t ∧ step t = .next u ∧ u.rsp = t.rsp ∧ u.trc = t.trc) ∧
  (∀ (s : State) (buf : Option BitBuffer) (rest : List Input),
    s.inputs = .call buf :: .call buf :: rest →
    ∃ t u : State, step s = .next t ∧ step t = .next u ∧ u.returned = t.returned ∧
      u.emitted = t.emitted)

/-- Exactly one response per request not coinciding with `rst` and none otherwise; and a trace
exactly with a valid `Ok` response. -/
def Obligations.OneResponsePerRequest : Prop :=
  ∀ (s : State) (q : Ports) (rest : List Input), s.inputs = .edge q :: rest →
    ∃ t : State, step s = .next t ∧
      (rspValid t.rsp = 1 ↔ q.rst = 0 ∧ q.reqValid = 1) ∧
      (∀ w ∈ t.trc,
        ((traceOutputs w).trcValid = 1 ↔ rspValid t.rsp = 1 ∧ rspStatus t.rsp = 0) ∧
        ((traceOutputs w).trcValid = 0 → w = 0x0000))

/-- R110: under a truthful presentation the response encodes `decode` of the buffer, at every legal
pair of widths and whatever the ignored ports hold; so the sink's reading of `RSP` is `decode`'s
result and the record it takes is `decode`'s record. -/
def Obligations.PortsComputeDecode : Prop :=
  ∀ (s : State) (buf : Option BitBuffer) (q : Ports) (rest : List Input),
    s.params.wf → Presents s.params buf q → s.inputs = .edge q :: rest →
    ∃ t : State, step s = .next t ∧
      (decodeF buf = .err .wrongRowCount ↔ t.rsp = 0xA0) ∧
      (decodeF buf = .err .wrongLength ↔ t.rsp = 0xC0) ∧
      (∀ m : DecodedMessage, decodeF buf = .ok m ↔
        m.model = "MightyMule-FM231" ∧ t.rsp.toNat = 0x80 + 2 * m.id.val + m.batteryOk.val) ∧
      readRsp t.rsp = .response (decodeF buf) ∧
      sinkRecord t = (match decodeF buf with | .ok m => some m | .err _ => none)

/-- The line form of a request presents its buffer truthfully and fits the ports; saturation turns no
wrong count into a right one (R42, R148). -/
def Obligations.PresentationIsTruthful : Prop :=
  ∀ (p : Params) (buf : Option BitBuffer), p.wf →
    Presents p buf (present p buf) ∧ (present p buf).fits p ∧
    ((present p buf).rowCount = 1 ↔ rows buf = 1) ∧
    (rows buf = 1 → ((present p buf).row0Len = 9 ↔ ∃ h : 0 < rows buf, len buf 0 h = 9))

/-- R75: the lines `RESET`, `IDLE n` and `DECODE <buffer> x n` are edges, as many as they say, that
select their operation; a `DECODE` line presents its buffer. -/
def Obligations.LinesSelectTheirOperation : Prop :=
  ∀ p : Params, p.wf →
    (∀ held : Ports, ∃ q, (Line.reset held).inputs p = [.edge q] ∧ decodePorts q = .reset) ∧
    (∀ n : Nat, ((Line.idle n).inputs p).length = n ∧
      ∀ x ∈ (Line.idle n).inputs p, ∃ q, x = .edge q ∧ q.rst = 0 ∧ q.reqValid = 0 ∧
        decodePorts q = .idle q.rowCount q.row0Len q.row0Bits) ∧
    (∀ (buf : Option BitBuffer) (n : Nat), ((Line.decode buf n).inputs p).length = n ∧
      ∀ x ∈ (Line.decode buf n).inputs p, ∃ q, x = .edge q ∧ q.rst = 0 ∧ q.reqValid = 1 ∧
        Presents p buf q)

/-- R72: the words of `RSP` and of `TRC` an edge can leave are exactly the legal ones. -/
def Obligations.LegalWordsAreThoseProduced : Prop :=
  (∀ (s : State) (w : RspWord), legalRsp w ↔
    ∃ (q : Ports) (t : State), step (s.offer (.edge q)) = .next t ∧ t.rsp = w) ∧
  (∀ (s : State) (w : TrcWord), s.trc.isSome → (legalTrc w ↔
    ∃ (q : Ports) (t : State), step (s.offer (.edge q)) = .next t ∧ t.trc = some w))

/-- Every step keeps the invariant. Steps with no act left (log 2), with unstable inputs (logs 8 and
18) and Layer F calls (log 4) are the model's. -/
def Obligations.StepKeepsInvariant : Prop :=
  ∀ s t : State, s.Inv → step s = .next t → t.Inv

/-- The state after reset meets the invariant, with the default widths (R11, log 7), no act of the caller
waiting (log 1) and nothing returned to a Layer F caller (log 4), which are the model's choices. -/
def Obligations.ResetMeetsInvariant : Prop :=
  State.reset.Inv ∧ State.reset.params = { wRows := 16, wLen := 16 } ∧ State.reset.inputs = [] ∧
    State.reset.returned = none ∧ State.reset.emitted = none

/-- R34: what reset leaves, in the reset state and after a `RESET` cycle from any state; the constants
hold at all times (R27, R32). The bits of `MODEL` rest on ASCII, the spec's general knowledge
(log 12). That the reset state has a `TRC` is the default of `HAS_TRACE` (R11, log 6). -/
def Obligations.ResetLeavesZeros : Prop :=
  (State.reset.rsp = 0x00 ∧ State.reset.trc = some 0x0000) ∧
  (∀ s t : State, exec .reset s = .next t →
    (outputs t).rspValid = 0 ∧ (outputs t).rspStatus = 0 ∧ (outputs t).rspId = 0 ∧
    (outputs t).rspBatteryOk = 0 ∧ t.rsp = 0x00 ∧
    (s.trc.isSome → t.trc = some 0x0000 ∧ (outputs t).trace = some ⟨0, 0, 0, 0, 0⟩)) ∧
  (∀ s : State, (outputs s).model = 0x4D69676874794D756C652D464D323331 ∧
    (outputs s).desc = ⟨1, 9, .ookPwm, 650, 1200, 3800, 1100, 1100, 200⟩)

/-- R32: `MODEL` holds the sixteen characters, first character in the most significant byte. That the
codes are ASCII is the spec's general knowledge (log 12). -/
def Obligations.ModelHoldsTheString : Prop :=
  Config.modelString = "MightyMule-FM231" ∧ Config.modelString.toList.length = 16 ∧
  ∀ (s : State) (k : Fin 16),
    (((outputs s).model.extractLsb' (120 - 8 * k.val) 8).toNat) =
      (Config.modelString.toList.map Char.toNat)[k.val]?.getD 0
end

