-- ==== Sys2Proof/Laws/Buffer.lean ====
section
/-!
SUPPORT. What reading the bit buffer gives: the number a list of bits writes, and the three cases of
`readFrame`.
-/

namespace Sys2Proof.Machine

theorem foldBits_eq (bits : List Bit) (a : Nat) :
    bits.foldl (fun acc b => 2 * acc + b.toNat) a = a * 2 ^ bits.length + valueOfBits bits := by
  induction bits generalizing a with
  | nil => simp [valueOfBits]
  | cons b bs ih =>
    simp only [valueOfBits, List.foldl_cons, List.length_cons, ih (2 * a + b.toNat),
      ih (2 * 0 + b.toNat)]
    ring

@[simp] theorem valueOfBits_nil : valueOfBits [] = 0 := rfl

theorem valueOfBits_cons (b : Bit) (bs : List Bit) :
    valueOfBits (b :: bs) = b.toNat * 2 ^ bs.length + valueOfBits bs := by
  have h := foldBits_eq bs (2 * 0 + b.toNat)
  simpa [valueOfBits] using h

theorem valueOfBits_lt (bits : List Bit) : valueOfBits bits < 2 ^ bits.length := by
  induction bits with
  | nil => simp
  | cons b bs ih =>
    have hb : b.toNat < 2 := b.isLt
    rw [valueOfBits_cons, List.length_cons, pow_succ]
    nlinarith

/-- Bit `k` of the list has weight `2^(length-1-k)` (R43). -/
theorem valueOfBits_testBit (bits : List Bit) (k : Nat) (hk : k < bits.length) :
    (valueOfBits bits).testBit (bits.length - 1 - k) = (bits[k] == 1) := by
  induction bits generalizing k with
  | nil => simp at hk
  | cons b bs ih =>
    rw [valueOfBits_cons]
    have hlt := valueOfBits_lt bs
    cases k with
    | zero =>
      have hb : ∀ b : Bit, b = 0 ∨ b = 1 := by decide
      rcases hb b with rfl | rfl
      · simpa using Nat.testBit_lt_two_pow hlt
      · simp [Nat.testBit_two_pow_add_eq, Nat.testBit_lt_two_pow hlt]
    | succ k =>
      have hk' : k < bs.length := by simpa using hk
      have hj : bs.length - 1 - k < bs.length := by omega
      have hidx : (b :: bs).length - 1 - (k + 1) = bs.length - 1 - k := by simp; omega
      rw [hidx, Nat.mul_comm, Nat.testBit_two_pow_mul_add _ hlt, if_pos hj, ih k hk']
      simp

/-- The read of a row of nine bits is the number they write. -/
theorem readFrame_row {r : Row} (h : r.length = 9) :
    readFrame (some [r]) = .ok (BitVec.ofNat 9 (valueOfBits r)) := by
  have h1 : checkRows (rows (some [r])) = none := rfl
  have h2 : checkLen r.length = none := by simp [checkLen, h]
  unfold readFrame
  split
  · rename_i e he; rw [h1] at he; cases he
  · split
    · rename_i e he
      have : checkLen r.length = some e := he
      rw [h2] at this; cases this
    · simp only [memRead, row, contents, Option.getD_some, List.getElem_cons_zero, List.drop_zero]
      rw [List.take_of_length_le (by omega)]

/-- The rows check fails exactly when there is not one row. -/
theorem readFrame_wrongRows {buf : Option BitBuffer} (h : rows buf ≠ 1) :
    readFrame buf = .error .wrongRowCount := by
  have h1 : checkRows (rows buf) = some .wrongRowCount := by simp [checkRows, h]
  unfold readFrame
  split
  · rename_i e he; rw [h1] at he; cases he; rfl
  · rename_i he; rw [h1] at he; cases he

/-- A buffer of one row, as that row. -/
theorem eq_of_rows_eq_one {buf : Option BitBuffer} (h : rows buf = 1) : ∃ r, buf = some [r] := by
  cases buf with
  | none => simp [rows, contents] at h
  | some b =>
    obtain ⟨r, rfl⟩ := List.length_eq_one_iff.mp (show b.length = 1 from h)
    exact ⟨r, rfl⟩

theorem readFrame_wrongLength {r : Row} (h : r.length ≠ 9) :
    readFrame (some [r]) = .error .wrongLength := by
  have h1 : checkRows (rows (some [r])) = none := rfl
  have h2 : checkLen r.length = some .wrongLength := by simp [checkLen, h]
  unfold readFrame
  split
  · rename_i e he; rw [h1] at he; cases he
  · split
    · rename_i e he
      have : checkLen r.length = some e := he
      rw [h2] at this; cases this; rfl
    · rename_i he
      have : checkLen r.length = none := he
      rw [h2] at this; cases this

/-- Everything `readFrame` can answer, for every buffer (R83). -/
theorem readFrame_cases (buf : Option BitBuffer) :
    (rows buf ≠ 1 ∧ readFrame buf = .error .wrongRowCount) ∨
    (∃ r, buf = some [r] ∧ r.length ≠ 9 ∧ readFrame buf = .error .wrongLength) ∨
    (∃ r, buf = some [r] ∧ r.length = 9 ∧
      readFrame buf = .ok (BitVec.ofNat 9 (valueOfBits r))) := by
  by_cases h : rows buf = 1
  · obtain ⟨r, rfl⟩ := eq_of_rows_eq_one h
    by_cases hl : r.length = 9
    · exact .inr (.inr ⟨r, rfl, hl, readFrame_row hl⟩)
    · exact .inr (.inl ⟨r, rfl, hl, readFrame_wrongLength hl⟩)
  · exact .inl ⟨h, readFrame_wrongRows h⟩

theorem rowOfFrame_value (data : FrameData) : valueOfBits (rowOfFrame data) = data.toNat := by
  revert data; decide +kernel

/-- Reading the row of a frame gives the frame back. -/
@[simp] theorem readFrame_rowOfFrame (data : FrameData) :
    readFrame (some [rowOfFrame data]) = .ok data := by
  rw [readFrame_row rfl, rowOfFrame_value]; simp

theorem decodeF_of_error {buf : Option BitBuffer} {e : DecodeError} (h : readFrame buf = .error e) :
    decodeF buf = .err e := by simp [decodeF, resultOf, h]

theorem decodeF_of_ok {buf : Option BitBuffer} {d : FrameData} (h : readFrame buf = .ok d) :
    decodeF buf = .ok (messageOf d) := by simp [decodeF, resultOf, h]

theorem traceF_of_error {buf : Option BitBuffer} {e : DecodeError} (h : readFrame buf = .error e) :
    traceF buf = none := by simp [traceF, h]

theorem traceF_of_ok {buf : Option BitBuffer} {d : FrameData} (h : readFrame buf = .ok d) :
    traceF buf = some (traceOf d) := by simp [traceF, h]

/-- The trace of a call is that of the frame read, if one was. -/
theorem traceF_eq (buf : Option BitBuffer) : traceF buf = (readFrame buf).toOption.map traceOf := by
  cases h : readFrame buf with
  | error e => simp [traceF_of_error h, Except.toOption]
  | ok d => simp [traceF_of_ok h, Except.toOption]

theorem decodeBuffer_of_error {buf : Option BitBuffer} {e : DecodeError}
    (h : readFrame buf = .error e) : decodeBuffer buf = .error e := by simp [decodeBuffer, h]

theorem decodeBuffer_of_ok {buf : Option BitBuffer} {d : FrameData} (h : readFrame buf = .ok d) :
    decodeBuffer buf = .ok (.frame d) := by simp [decodeBuffer, h]

/-- The row that two bytes hold writes the number the packed formula gives (R43, log 15). -/
theorem packedRow_value (byte0 byte1 : BitVec 8) :
    valueOfBits (packedRow byte0 byte1) = (packedData byte0 byte1).toNat := by
  have hlow : ∀ b : BitVec 8,
      (b >>> 7).zeroExtend 9 = ((b.extractLsb' 7 1).zeroExtend 9 : FrameData) := by decide +kernel
  have hrow : ∀ (b : BitVec 8) (c : Bit), valueOfBits (bitsOfByte b ++ [c]) =
      ((b.zeroExtend 9 : FrameData) <<< 1 ||| c.zeroExtend 9).toNat := by decide +kernel
  rw [packedData, hlow, ← hrow]
  rfl

end Sys2Proof.Machine
end

