-- ==== Sys2Proof/Laws/Decode.lean ====
section
/-!
SUPPORT. What decoding gives: the classes of sampled ports, the fields of a request word, and what
masking a request word leaves of them.
-/

namespace Sys2Proof

open Machine

theorem checkRows_eq_none {n : Nat} : checkRows n = none ↔ n = 1 := by simp [checkRows]

theorem checkLen_eq_none {n : Nat} : checkLen n = none ↔ n = 9 := by simp [checkLen]

theorem decodePorts_reset {q : Ports} (h : q.rst = 1) : decodePorts q = .reset := by
  simp [decodePorts, h]

theorem decodePorts_idle {q : Ports} (h : q.rst = 0) (hv : q.reqValid = 0) :
    decodePorts q = .idle q.rowCount q.row0Len q.row0Bits := by
  simp [decodePorts, h, hv]

theorem decodePorts_wrongRows {q : Ports} (h : q.rst = 0) (hv : q.reqValid = 1)
    (hr : q.rowCount ≠ 1) :
    decodePorts q = .decodeWrongRows q.rowCount q.row0Len q.row0Bits := by
  simp [decodePorts, h, hv, checkRows, hr]

theorem decodePorts_wrongLen {q : Ports} (h : q.rst = 0) (hv : q.reqValid = 1)
    (hr : q.rowCount = 1) (hl : q.row0Len ≠ 9) :
    decodePorts q = .decodeWrongLen q.row0Len q.row0Bits := by
  simp [decodePorts, h, hv, checkRows, checkLen, hr, hl]

theorem decodePorts_ok {q : Ports} (h : q.rst = 0) (hv : q.reqValid = 1) (hr : q.rowCount = 1)
    (hl : q.row0Len = 9) : decodePorts q = .decodeOk q.row0Bits := by
  simp [decodePorts, h, hv, checkRows, checkLen, hr, hl]

theorem bit_cases (b : Bit) : b = 0 ∨ b = 1 := by revert b; decide

/-- The five kinds of sampled ports; exactly one holds (R68, R109). -/
theorem ports_cases (q : Ports) :
    q.rst = 1 ∨ (q.rst = 0 ∧ q.reqValid = 0) ∨ (q.rst = 0 ∧ q.reqValid = 1 ∧ q.rowCount ≠ 1) ∨
    (q.rst = 0 ∧ q.reqValid = 1 ∧ q.rowCount = 1 ∧ q.row0Len ≠ 9) ∨
    (q.rst = 0 ∧ q.reqValid = 1 ∧ q.rowCount = 1 ∧ q.row0Len = 9) := by
  rcases bit_cases q.rst with h | h <;> rcases bit_cases q.reqValid with hv | hv <;>
    by_cases hr : q.rowCount = 1 <;> by_cases hl : q.row0Len = 9 <;> simp [h, hv, hr, hl]

/-- The fields of a request word are the ones it was made of, as far as they fit (R62). -/
theorem unpackReq_reqWord (p : Params) (v : Bit) (rc len : Nat) (b : FrameData) :
    unpackReq p (reqWord p v rc len b) =
      { rst := 0, reqValid := v, rowCount := rc % 2 ^ p.wRows, row0Len := len % 2 ^ p.wLen,
        row0Bits := b } := by
  have h1 : (reqWord p v rc len b).extractLsb' (p.wRows + p.wLen + 9) 1 = v := by
    ext i hi
    simp only [reqWord, BitVec.getElem_extractLsb', BitVec.getLsbD_append]
    obtain rfl : i = 0 := by omega
    rw [if_neg (by omega), if_neg (by omega), if_neg (by omega),
      show p.wRows + p.wLen + 9 + 0 - 9 - p.wLen - p.wRows = 0 by omega,
      BitVec.getLsbD_eq_getElem hi]
  have h2 : (reqWord p v rc len b).extractLsb' (p.wLen + 9) p.wRows = BitVec.ofNat p.wRows rc := by
    ext i hi
    simp only [reqWord, BitVec.getElem_extractLsb', BitVec.getLsbD_append]
    rw [if_neg (by omega), if_neg (by omega), if_pos (by omega),
      show p.wLen + 9 + i - 9 - p.wLen = i by omega, BitVec.getLsbD_eq_getElem hi]
  have h3 : (reqWord p v rc len b).extractLsb' 9 p.wLen = BitVec.ofNat p.wLen len := by
    ext i hi
    simp only [reqWord, BitVec.getElem_extractLsb', BitVec.getLsbD_append]
    rw [if_neg (by omega), if_pos (by omega), show 9 + i - 9 = i by omega,
      BitVec.getLsbD_eq_getElem hi]
  have h4 : (reqWord p v rc len b).extractLsb' 0 9 = b := by
    ext i hi
    simp only [reqWord, BitVec.getElem_extractLsb', BitVec.getLsbD_append]
    rw [if_pos (by omega), show 0 + i = i by omega, BitVec.getLsbD_eq_getElem hi]
  simp [unpackReq, h1, h2, h3, h4]

/-- Every request word is made of its own fields: encoding loses no bit (R62). -/
theorem reqWord_unpackReq (p : Params) (w : BitVec p.reqWidth) :
    reqWord p (unpackReq p w).reqValid (unpackReq p w).rowCount (unpackReq p w).row0Len
      (unpackReq p w).row0Bits = w := by
  apply BitVec.eq_of_getLsbD_eq
  intro i hi
  simp only [reqWord, unpackReq, BitVec.getLsbD_append, BitVec.ofNat_toNat, BitVec.setWidth_eq,
    BitVec.getLsbD_extractLsb']
  split
  · rename_i h; simp [h]
  · split
    · rename_i h1 h2
      simp [h2, show 9 + (i - 9) = i by omega]
    · split
      · rename_i h1 h2 h3
        simp [h3, show p.wLen + 9 + (i - 9 - p.wLen) = i by omega]
      · rename_i h1 h2 h3
        have hw : i < 1 + p.wRows + p.wLen + 9 := hi
        have h4 : i - 9 - p.wLen - p.wRows = 0 := by omega
        simp [h4, show p.wRows + p.wLen + 9 = i by omega]

/-- The counts of a request word fit the ports it came from. -/
theorem unpackReq_fits (p : Params) (w : BitVec p.reqWidth) : (unpackReq p w).fits p :=
  ⟨(w.extractLsb' (p.wLen + 9) p.wRows).isLt, (w.extractLsb' 9 p.wLen).isLt⟩

/-- Two request words are equal when their fields are, and only then. -/
theorem reqWord_inj {p : Params} {v v' : Bit} {rc rc' len len' : Nat} {b b' : FrameData} :
    reqWord p v rc len b = reqWord p v' rc' len' b' ↔
      v = v' ∧ rc % 2 ^ p.wRows = rc' % 2 ^ p.wRows ∧ len % 2 ^ p.wLen = len' % 2 ^ p.wLen ∧
        b = b' := by
  constructor
  · intro h
    have hu := congrArg (unpackReq p) h
    simpa [unpackReq_reqWord] using hu
  · rintro ⟨rfl, hr, hl, rfl⟩
    have e1 : BitVec.ofNat p.wRows rc = BitVec.ofNat p.wRows rc' := BitVec.eq_of_toNat_eq (by simpa)
    have e2 : BitVec.ofNat p.wLen len = BitVec.ofNat p.wLen len' := BitVec.eq_of_toNat_eq (by simpa)
    simp [reqWord, e1, e2]

/-- Masking a request word masks its fields. -/
theorem reqWord_and (p : Params) (v v' : Bit) (rc rc' len len' : Nat) (b b' : FrameData) :
    reqWord p v rc len b &&& reqWord p v' rc' len' b' =
      reqWord p (v &&& v') (rc &&& rc') (len &&& len') (b &&& b') := by
  apply BitVec.eq_of_getLsbD_eq
  intro i hi
  simp only [reqWord, BitVec.getLsbD_and, BitVec.getLsbD_append, BitVec.getLsbD_ofNat,
    Nat.testBit_and]
  split
  · rfl
  · split
    · rename_i h; simp [h]
    · split
      · rename_i h; simp [h]
      · rfl

/-- A whole-field mask keeps the field. -/
theorem and_ones (n w : Nat) : (n &&& (2 ^ w - 1)) % 2 ^ w = n % 2 ^ w := by
  rw [Nat.and_two_pow_sub_one_eq_mod, Nat.mod_mod]

end Sys2Proof
end

