-- ==== Sys2Proof/Laws/State.lean ====
section
/-!
SUPPORT. One lemma per field per update of the state, so that no proof unfolds a record update.
-/

namespace Sys2Proof.Machine

variable (s : State)

@[simp] theorem State.setRsp_rsp (w : RspWord) : (s.setRsp w).rsp = w := rfl
@[simp] theorem State.setRsp_trc (w : RspWord) : (s.setRsp w).trc = s.trc := rfl
@[simp] theorem State.setRsp_params (w : RspWord) : (s.setRsp w).params = s.params := rfl
@[simp] theorem State.setRsp_inputs (w : RspWord) : (s.setRsp w).inputs = s.inputs := rfl
@[simp] theorem State.setRsp_returned (w : RspWord) : (s.setRsp w).returned = s.returned := rfl
@[simp] theorem State.setRsp_emitted (w : RspWord) : (s.setRsp w).emitted = s.emitted := rfl

@[simp] theorem State.setTrc_rsp (w : TrcWord) : (s.setTrc w).rsp = s.rsp := rfl
@[simp] theorem State.setTrc_trc (w : TrcWord) : (s.setTrc w).trc = s.trc.map (fun _ => w) := rfl
@[simp] theorem State.setTrc_params (w : TrcWord) : (s.setTrc w).params = s.params := rfl
@[simp] theorem State.setTrc_inputs (w : TrcWord) : (s.setTrc w).inputs = s.inputs := rfl
@[simp] theorem State.setTrc_returned (w : TrcWord) : (s.setTrc w).returned = s.returned := rfl
@[simp] theorem State.setTrc_emitted (w : TrcWord) : (s.setTrc w).emitted = s.emitted := rfl

@[simp] theorem State.clear_rsp : (s.clear).rsp = 0x00 := rfl
@[simp] theorem State.clear_trc : (s.clear).trc = s.trc.map (fun _ => 0x0000) := rfl
@[simp] theorem State.clear_params : (s.clear).params = s.params := rfl
@[simp] theorem State.clear_inputs : (s.clear).inputs = s.inputs := rfl
@[simp] theorem State.clear_returned : (s.clear).returned = s.returned := rfl
@[simp] theorem State.clear_emitted : (s.clear).emitted = s.emitted := rfl

@[simp] theorem State.accept_rsp (data : FrameData) :
    (s.accept data).rsp = acceptWord data :=
  rfl
@[simp] theorem State.accept_trc (data : FrameData) :
    (s.accept data).trc = s.trc.map (fun _ => traceWord data) :=
  rfl
@[simp] theorem State.accept_params (data : FrameData) : (s.accept data).params = s.params := rfl
@[simp] theorem State.accept_inputs (data : FrameData) : (s.accept data).inputs = s.inputs := rfl
@[simp] theorem State.accept_returned (data : FrameData) :
    (s.accept data).returned = s.returned :=
  rfl
@[simp] theorem State.accept_emitted (data : FrameData) : (s.accept data).emitted = s.emitted := rfl

@[simp] theorem State.fail_rsp (e : DecodeError) :
    (s.fail e).rsp = failWord e :=
  rfl
@[simp] theorem State.fail_trc (e : DecodeError) :
    (s.fail e).trc = s.trc.map (fun _ => 0x0000) :=
  rfl
@[simp] theorem State.fail_params (e : DecodeError) : (s.fail e).params = s.params := rfl
@[simp] theorem State.fail_inputs (e : DecodeError) : (s.fail e).inputs = s.inputs := rfl
@[simp] theorem State.fail_returned (e : DecodeError) : (s.fail e).returned = s.returned := rfl
@[simp] theorem State.fail_emitted (e : DecodeError) : (s.fail e).emitted = s.emitted := rfl

@[simp] theorem State.deliver_rsp (r : Result) (t : Option TraceRecord) :
    (s.deliver r t).rsp = s.rsp :=
  rfl
@[simp] theorem State.deliver_trc (r : Result) (t : Option TraceRecord) :
    (s.deliver r t).trc = s.trc :=
  rfl
@[simp] theorem State.deliver_params (r : Result) (t : Option TraceRecord) :
    (s.deliver r t).params = s.params :=
  rfl
@[simp] theorem State.deliver_inputs (r : Result) (t : Option TraceRecord) :
    (s.deliver r t).inputs = s.inputs :=
  rfl
@[simp] theorem State.deliver_returned (r : Result) (t : Option TraceRecord) :
    (s.deliver r t).returned = some r :=
  rfl
@[simp] theorem State.deliver_emitted (r : Result) (t : Option TraceRecord) :
    (s.deliver r t).emitted = if s.hasTrace then t else none :=
  rfl

@[simp] theorem State.drawResponse_rsp (d : EdgeDraw) :
    (s.drawResponse d).rsp = answerWord d.answer :=
  rfl
@[simp] theorem State.drawResponse_trc (d : EdgeDraw) :
    (s.drawResponse d).trc = s.trc.map (fun _ => tracedWord d.trace) :=
  rfl
@[simp] theorem State.drawResponse_params (d : EdgeDraw) :
    (s.drawResponse d).params = s.params :=
  rfl
@[simp] theorem State.drawResponse_inputs (d : EdgeDraw) :
    (s.drawResponse d).inputs = s.inputs :=
  rfl
@[simp] theorem State.drawResponse_returned (d : EdgeDraw) :
    (s.drawResponse d).returned = s.returned :=
  rfl
@[simp] theorem State.drawResponse_emitted (d : EdgeDraw) :
    (s.drawResponse d).emitted = s.emitted :=
  rfl

@[simp] theorem State.consume_rsp : (s.consume).rsp = s.rsp := rfl
@[simp] theorem State.consume_trc : (s.consume).trc = s.trc := rfl
@[simp] theorem State.consume_params : (s.consume).params = s.params := rfl
@[simp] theorem State.consume_inputs : (s.consume).inputs = s.inputs.tail := rfl
@[simp] theorem State.consume_returned : (s.consume).returned = s.returned := rfl
@[simp] theorem State.consume_emitted : (s.consume).emitted = s.emitted := rfl

@[simp] theorem State.offer_rsp (x : Input) : (s.offer x).rsp = s.rsp := rfl
@[simp] theorem State.offer_trc (x : Input) : (s.offer x).trc = s.trc := rfl
@[simp] theorem State.offer_params (x : Input) : (s.offer x).params = s.params := rfl
@[simp] theorem State.offer_inputs (x : Input) : (s.offer x).inputs = x :: s.inputs := rfl
@[simp] theorem State.offer_returned (x : Input) : (s.offer x).returned = s.returned := rfl
@[simp] theorem State.offer_emitted (x : Input) : (s.offer x).emitted = s.emitted := rfl

/-- A state is its fields: the way a full next state is compared with the one a rule gives. -/
theorem State.eq_of_fields {s t : State} (h1 : s.rsp = t.rsp) (h2 : s.trc = t.trc)
    (h3 : s.params = t.params) (h4 : s.inputs = t.inputs) (h5 : s.returned = t.returned)
    (h6 : s.emitted = t.emitted) : s = t := by
  cases s; cases t; simp_all

/-- Whether the trace register exists never changes when it is written. -/
@[simp] theorem State.setTrc_hasTrace (w : TrcWord) : (s.setTrc w).hasTrace = s.hasTrace := by
  simp [State.hasTrace]

@[simp] theorem State.consume_hasTrace : s.consume.hasTrace = s.hasTrace := rfl

@[simp] theorem State.nextInput_of_cons {x : Input} {rest : List Input} (h : s.inputs = x :: rest) :
    s.nextInput = x := by
  simp [State.nextInput, h]

@[simp] theorem State.nextInput_of_nil (h : s.inputs = []) : s.nextInput = .edge idlePorts := by
  simp [State.nextInput, h]

end Sys2Proof.Machine
end

