-- ==== Sys2Proof/Laws/Ops.lean ====
section
/-!
SUPPORT. What the words of `RSP` and `TRC` are as numbers and fields, how a reader takes them, and
that every shared operation leaves legal words.
-/

namespace Sys2Proof.Machine

/-- The response word of a successful decode (R106). -/
theorem acceptWord_toNat : ∀ data : FrameData,
    (acceptWord data).toNat =
      0x80 + 2 * (data.toNat % 16) + (1 - data.toNat / 16 % 2) := by decide +kernel

/-- The trace word of a successful decode (R106). -/
theorem traceWord_toNat : ∀ data : FrameData, (traceWord data).toNat =
    0x8000 + 64 * data.toNat + 32 * (data.toNat / 16 % 2) + 16 * (1 - data.toNat / 16 % 2) +
      data.toNat % 16 := by decide +kernel

@[simp] theorem failWord_wrongRowCount : failWord .wrongRowCount = 0xA0#8 := by decide

@[simp] theorem failWord_wrongLength : failWord .wrongLength = 0xC0#8 := by decide

theorem messageOf_id (data : FrameData) : (messageOf data).id.val = data.toNat % 16 := by
  simp [messageOf, make, getId]

theorem messageOf_batteryOk : ∀ data : FrameData,
    (messageOf data).batteryOk.val = 1 - data.toNat / 16 % 2 := by
  have h : ∀ data : FrameData, (invert (getBatt data)).toNat = 1 - data.toNat / 16 % 2 := by
    decide +kernel
  exact h

@[simp] theorem messageOf_model (data : FrameData) :
    (messageOf data).model = Config.modelString := rfl

/-- A record of `decode` is its two numbers. -/
theorem messageOf_eq_iff {data : FrameData} {m : DecodedMessage} :
    messageOf data = m ↔ m.model = Config.modelString ∧ m.id.val = data.toNat % 16 ∧
      m.batteryOk.val = 1 - data.toNat / 16 % 2 := by
  rw [← messageOf_id, ← messageOf_batteryOk]
  constructor
  · rintro rfl; simp
  · intro ⟨h1, h2, h3⟩
    obtain ⟨model, id, ok⟩ := m
    simp only [messageOf, make, DecodedMessage.mk.injEq] at *
    exact ⟨h1.symm, Fin.ext h2.symm, Fin.ext h3.symm⟩

theorem readRsp_acceptWord (data : FrameData) :
    readRsp (acceptWord data) =
      .response (.ok (messageOf data)) := by
  have hne : ∀ d : FrameData,
      let w := acceptWord d
      w ≠ 0 ∧ w ≠ 0xA0 ∧ w ≠ 0xC0 ∧ rspValid w = 1 ∧ rspStatus w = statusOk ∧ rspId w = getId d ∧
        rspBatteryOk w = invert (getBatt d) := by decide +kernel
  obtain ⟨h0, h1, h2, h3, h4, h5, h6⟩ := hne data
  simp only [readRsp, h0, h1, h2, h3, h4, h5, h6, if_false, and_self, if_true, messageOf]

theorem legalRsp_acceptWord : ∀ data : FrameData,
    legalRsp (acceptWord data) := by decide +kernel

theorem legalRsp_failWord (e : DecodeError) : legalRsp (failWord e) := by
  cases e <;> decide

theorem legalTrc_traceWord : ∀ data : FrameData, legalTrc (traceWord data) := by decide +kernel

/-- A successful response is neither failure's word (R72). -/
theorem acceptWord_ne (data : FrameData) :
    acceptWord data ≠ 0x00#8 ∧ acceptWord data ≠ 0xA0#8 ∧ acceptWord data ≠ 0xC0#8 := by
  revert data; decide +kernel

/-- Whatever the answer, its word is legal (U4). -/
theorem legalRsp_answerWord (a : Option Answer) : legalRsp (answerWord a) := by
  rcases a with _ | (e | d)
  · decide
  · exact legalRsp_failWord e
  · exact legalRsp_acceptWord d

/-- Every legal word of `RSP` is the word of some answer, so a free answer is any of them (U4). -/
theorem exists_answer_of_legalRsp {w : RspWord} (h : legalRsp w) : ∃ a, answerWord a = w := by
  have hok : ∀ w : RspWord, 0x80 ≤ w ∧ w ≤ 0x9F →
      acceptWord ((w.extractLsb' 1 4).zeroExtend 9 |||
        ((1#1 - w.extractLsb' 0 1).zeroExtend 9 <<< 4)) = w := by decide +kernel
  rcases h with rfl | h | rfl | rfl
  · exact ⟨none, rfl⟩
  · exact ⟨some (.ok _), hok w h⟩
  · exact ⟨some (.error .wrongRowCount), failWord_wrongRowCount⟩
  · exact ⟨some (.error .wrongLength), failWord_wrongLength⟩

/-- A reader of `RSP` gets the answer's result back (R110). -/
theorem readRsp_answerWord (a : Answer) :
    readRsp (answerWord (some a)) = .response (resultOf a) := by
  rcases a with e | d
  · cases e <;> decide
  · exact readRsp_acceptWord d

/-- Whatever was traced, its word is legal (U4). -/
theorem legalTrc_tracedWord (t : Option FrameData) : legalTrc (tracedWord t) := by
  cases t with
  | none => decide
  | some d => exact legalTrc_traceWord d

/-- Every legal word of `TRC` is the word of some trace, so a free trace is any of them (U4). -/
theorem exists_trace_of_legalTrc {w : TrcWord} (h : legalTrc w) : ∃ t, tracedWord t = w := by
  rcases h with rfl | h
  · exact ⟨none, rfl⟩
  · exact ⟨some _, h.symm⟩

/-- Every result with the constant model string is the result of some answer. -/
theorem exists_answer_of_legalResult {r : Result} (h : legalResult r) : ∃ a, resultOf a = r := by
  rcases r with ⟨model, i, k⟩ | e
  · refine ⟨.ok (BitVec.ofNat 9 (16 * (1 - k.val) + i.val)), ?_⟩
    rw [resultOf, Result.ok.injEq, messageOf_eq_iff]
    refine ⟨h, ?_, ?_⟩ <;> simp <;> omega
  · exact ⟨.error e, rfl⟩

theorem legalResult_resultOf (a : Answer) : legalResult (resultOf a) := by
  rcases a with e | d
  · trivial
  · rfl

theorem saturate_eq_iff {w n k : Nat} (h : k < 2 ^ w - 1) : saturate w n = k ↔ n = k := by
  unfold saturate; omega

end Sys2Proof.Machine
end

