-- ==== Sys2Proof/Laws/PerInstr.lean ====
section
/-!
SUPPORT. Per instruction: its encoding is a word that its own row of the opcode table matches (R68,
R76), at every legal pair of widths.
-/

namespace Sys2Proof.Laws.OwnRow

/-- The encoding of `i` lies in the space of its row and the row selects it. -/
def Statement (i : Instr) : Prop :=
  ∀ p : Params, p.wf → i.wf p →
    match encode p i with
    | .request w => ∃ r ∈ reqTable p, some r.cls = i.reqClass ∧ r.selects w = true
    | .pin w => i = .reset ∧ w = 1
    | .frame w => i = .frame w

theorem idle (rowCount row0Len : Nat) (row0Bits : FrameData) :
    Statement (.idle rowCount row0Len row0Bits) := by
  intro p _ _
  refine ⟨_, List.mem_cons_self, rfl, ?_⟩
  simp [ReqRow.selects, reqWord_and]

theorem decodeOk (row0Bits : FrameData) : Statement (.decodeOk row0Bits) := by
  intro p _ _
  refine ⟨_, List.mem_cons_of_mem _ List.mem_cons_self, rfl, ?_⟩
  simp only [ReqRow.selects, reqWord_and, beq_iff_eq, reqWord_inj, and_ones]
  simp

theorem decodeWrongLen (row0Len : Nat) (row0Bits : FrameData) :
    Statement (.decodeWrongLen row0Len row0Bits) := by
  intro p _ _
  refine ⟨_, List.mem_cons_of_mem _ (List.mem_cons_of_mem _ List.mem_cons_self), rfl, ?_⟩
  simp only [ReqRow.selects, reqWord_and, beq_iff_eq, reqWord_inj, and_ones]
  simp

theorem decodeWrongRows (rowCount row0Len : Nat) (row0Bits : FrameData) :
    Statement (.decodeWrongRows rowCount row0Len row0Bits) := by
  intro p _ _
  refine ⟨_, List.mem_cons_of_mem _ (List.mem_cons_of_mem _
    (List.mem_cons_of_mem _ List.mem_cons_self)), rfl, ?_⟩
  simp [ReqRow.selects, reqWord_and]

theorem reset : Statement .reset := fun _ _ _ => ⟨rfl, rfl⟩

theorem frame (data : FrameData) : Statement (.frame data) := fun _ _ _ => rfl

end Sys2Proof.Laws.OwnRow
end

