-- ==== Sys2Proof/Laws/Step.lean ====
section
/-!
SUPPORT. What `exec` and `step` can answer: one equation per instruction, one per kind of input, and
the case analysis the invariants go through.
-/

namespace Sys2Proof.Machine

variable (s : State)

theorem exec_idle (rc len : Nat) (b : FrameData) : exec (.idle rc len b) s = .next s.clear := rfl

theorem exec_decodeOk (d : FrameData) : exec (.decodeOk d) s = .next (s.accept d) := rfl

theorem exec_decodeWrongLen (len : Nat) (b : FrameData) :
    exec (.decodeWrongLen len b) s = .next (s.fail .wrongLength) := rfl

theorem exec_decodeWrongRows (rc len : Nat) (b : FrameData) :
    exec (.decodeWrongRows rc len b) s = .next (s.fail .wrongRowCount) := rfl

theorem exec_reset : exec .reset s = .next s.clear := rfl

theorem exec_frame (d : FrameData) :
    exec (.frame d) s = .next (s.deliver (.ok (messageOf d)) (some (traceOf d))) := rfl

/-- Everything an instruction can do to the state. -/
theorem exec_cases (i : Instr) :
    exec i s = .next s.clear ∨ (∃ d, exec i s = .next (s.accept d)) ∨
    (∃ e, exec i s = .next (s.fail e)) ∨
    (∃ d, exec i s = .next (s.deliver (.ok (messageOf d)) (some (traceOf d)))) := by
  cases i with
  | idle rc len b => exact .inl rfl
  | decodeOk d => exact .inr (.inl ⟨d, rfl⟩)
  | decodeWrongLen len b => exact .inr (.inr (.inl ⟨_, rfl⟩))
  | decodeWrongRows rc len b => exact .inr (.inr (.inl ⟨_, rfl⟩))
  | reset => exact .inl rfl
  | frame d => exact .inr (.inr (.inr ⟨d, rfl⟩))

variable {s}

theorem step_edge {q : Ports} {rest : List Input} (h : s.inputs = .edge q :: rest) :
    step s = exec (decodePorts q) s.consume := by
  simp [step, State.nextInput_of_cons s h]

theorem step_nil (h : s.inputs = []) : step s = .next s.consume.clear := by
  simp only [step, State.nextInput_of_nil s h]
  rfl

theorem step_unstable {d : EdgeDraw} {rest : List Input} (h : s.inputs = .unstable d :: rest) :
    step s = .next (s.consume.drawResponse d) := by
  simp [step, State.nextInput_of_cons s h]

theorem step_unstableCall {d : CallDraw} {rest : List Input}
    (h : s.inputs = .unstableCall d :: rest) :
    step s = .next (s.consume.deliver (resultOf d.answer) (d.trace.map traceOf)) := by
  simp [step, State.nextInput_of_cons s h, returnDrawn]

/-- A Layer F call hands over what `decode` answers (R105). -/
theorem step_call {buf : Option BitBuffer} {rest : List Input} (h : s.inputs = .call buf :: rest) :
    step s = .next (s.consume.deliver (decodeF buf) (traceF buf)) := by
  simp only [step, State.nextInput_of_cons s h]
  cases hf : readFrame buf with
  | error e =>
    simp [decodeBuffer_of_error hf, decodeF_of_error hf, traceF_of_error hf, returnFailure]
  | ok d => simp [decodeBuffer_of_ok hf, decodeF_of_ok hf, traceF_of_ok hf, exec_frame]

/-- Everything a step can do. -/
theorem step_cases (s : State) :
    step s = .next s.consume.clear ∨ (∃ d, step s = .next (s.consume.accept d)) ∨
    (∃ e, step s = .next (s.consume.fail e)) ∨
    (∃ (a : Answer) (t : Option FrameData),
      step s = .next (s.consume.deliver (resultOf a) (t.map traceOf))) ∨
    (∃ d, step s = .next (s.consume.drawResponse d)) := by
  cases h : s.inputs with
  | nil => exact .inl (step_nil h)
  | cons x rest =>
    cases x with
    | edge q =>
      rw [step_edge h]
      rcases ports_cases q with hq | ⟨h0, hv⟩ | ⟨h0, hv, hr⟩ | ⟨h0, hv, hr, hl⟩ | ⟨h0, hv, hr, hl⟩
      · exact .inl (by rw [decodePorts_reset hq]; rfl)
      · exact .inl (by rw [decodePorts_idle h0 hv]; rfl)
      · exact .inr (.inr (.inl ⟨.wrongRowCount, by rw [decodePorts_wrongRows h0 hv hr]; rfl⟩))
      · exact .inr (.inr (.inl ⟨.wrongLength, by rw [decodePorts_wrongLen h0 hv hr hl]; rfl⟩))
      · exact .inr (.inl ⟨q.row0Bits, by rw [decodePorts_ok h0 hv hr hl]; rfl⟩)
    | call buf =>
      exact .inr (.inr (.inr (.inl ⟨readFrame buf, _, by rw [step_call h, traceF_eq]; rfl⟩)))
    | unstable d => exact .inr (.inr (.inr (.inr ⟨d, step_unstable h⟩)))
    | unstableCall d => exact .inr (.inr (.inr (.inl ⟨d.answer, d.trace, step_unstableCall h⟩)))

end Sys2Proof.Machine
end

