-- ==== Sys2Proof/Tests/Slice0.lean ====
section
/-!
SUPPORT. Tests. Expected values are the spec's own vectors (95_test_vectors.md, named in each comment) or
its encodings; none comes from running the model. At the end, for each statement with hypotheses, a
theorem that shows them met.
-/

namespace Sys2Proof.Tests

open Sys2Proof Sys2Proof.Machine

/-! ### Well-formedness: an ill-formed term for each check -/

theorem test_wf_refuses_wide_row_count :
    (Instr.idle 65536 0 0).check Params.default = some .rowCountTooWide := by decide

theorem test_wf_refuses_wide_length :
    (Instr.decodeWrongLen 65536 0).check Params.default = some .row0LenTooWide := by decide

theorem test_wf_refuses_length_nine :
    (Instr.decodeWrongLen 9 0).check Params.default = some .lengthIsNine := by decide

theorem test_wf_refuses_one_row :
    (Instr.decodeWrongRows 1 8 0).check Params.default = some .rowCountIsOne := by decide

theorem test_wf_accepts_saturated :
    (Instr.decodeWrongRows 65535 65535 0x1FF).check Params.default = none := by decide

/-! ### Decoding: words written out from the encodings -/

/-- R62, S8: `1`, one row, nine bits, `1101 0 1011`. -/
theorem test_decode_ok :
    decodeTableWord 42 0b1_0000000000000001_0000000000001001_1101_0_1011 =
      some (.decodeOk 0b110101011) := by decide

/-- VR5: `req_valid = 0` with a good-looking request on the other ports. -/
theorem test_decode_idle :
    decodeTableWord 48 0x000020013AB = some (.idle 1 9 0x1AB) := by decide

/-- VA7, ten bits. -/
theorem test_decode_wrong_length :
    decodeTableWord 42 0b1_0000000000000001_0000000000001010_1101_0_1011 =
      some (.decodeWrongLen 10 0x1AB) := by decide

/-- VA21, 65537 rows presented as 65535. -/
theorem test_decode_wrong_rows :
    decodeTableWord 42 0b1_1111111111111111_0000000000001001_1101_0_1011 =
      some (.decodeWrongRows 65535 9 0x1AB) := by decide

/-- The pin at 1. -/
theorem test_decode_reset : decodeTableWord 8 0b1 = some .reset := by decide

/-- VD0: a lone 1 in the first received bit is 256. -/
theorem test_decode_frame : decodeTableWord 9 0b1_0000_0000 = some (.frame 256) := by decide

/-- Rejections by name. -/
theorem test_decode_rejects :
    decodeNumber 1 0 = .error .pinLow ∧ decodeNumber 9 512 = .error .bitsAboveWidth ∧
    decodeNumber 42 (2 ^ 42) = .error .bitsAboveWidth ∧ decodeNumber 7 1 = .error .noSuchFormat := by
  decide

/-- 95_test_vectors.md 2.6, first match. -/
theorem test_map_first_match :
    classOfWord Params.default 0x00000000000 = some .idle ∧
    classOfWord Params.default 0x20002001200 = some .ok ∧
    classOfWord Params.default 0x20003FFFE00 = some .wrongLen ∧
    classOfWord Params.default 0x3FFFE0013AB = some .wrongRows := by decide

/-- VA6, VA7, VA9 of the line form: the `REQ` word of a presented buffer. -/
theorem test_present_words :
    encode Params.default (decodePorts (present Params.default
      (some [[1, 1, 0, 1, 0, 1, 0, 1, 1]]))) = .request 0x200020013AB ∧
    encode Params.default (decodePorts (present Params.default
      (some [[1, 1, 0, 1, 0, 1, 0, 1, 1, 0]]))) = .request 0x200020015AB ∧
    encode Params.default (decodePorts (present Params.default
      (some [[1, 1, 0, 1, 0, 1, 0, 1, 1], [1, 1, 0, 1, 0, 1, 0, 1, 1]]))) =
      .request 0x200040013AB := by decide

/-- VA4, VA5: a row shorter than nine bits. -/
theorem test_present_short :
    encode Params.default (decodePorts (present Params.default (some [[1]]))) =
      .request 0x20002000300 ∧
    encode Params.default (decodePorts (present Params.default
      (some [[1, 1, 0, 1, 0, 1, 0, 1]]))) = .request 0x200020011AA := by decide

/-! ### Steps on small states -/

/-- A state that shows the response of S8, with one act left. -/
def showing (x : Input) : State :=
  { State.reset with rsp := 0x97, trc := some 0xEADB, inputs := [x] }

/-- The two registers after a step. -/
def words : Host.Outcome State Fault Refusal → Option (RspWord × Option TrcWord)
  | .next t => some (t.rsp, t.trc)
  | .fault _ => none
  | .refused _ => none

/-- What a Layer F call handed over. -/
def handed : Host.Outcome State Fault Refusal → Option (Option Result × Option TraceRecord)
  | .next t => some (t.returned, t.emitted)
  | .fault _ => none
  | .refused _ => none

/-- VR6, X9: an idle edge does not hold the response. -/
theorem test_idle : words (step (showing (.edge idlePorts))) = some (0x00, some 0x0000) := by decide

/-- VR5: an idle edge with a good-looking request on the other ports. -/
theorem test_idle_ignores :
    words (step (showing (.edge ⟨0, 0, 1, 9, 0x1AB⟩))) = some (0x00, some 0x0000) := by decide

/-- VB16: battery low, id 0; `RSP = 0x80` is a response. -/
theorem test_ok_battery_low :
    words (step (showing (.edge ⟨0, 1, 1, 9, 0x010⟩))) = some (0x80, some 0x8420) := by decide

/-- VD17: the last received bit is the least significant. -/
theorem test_ok_bit_order :
    words (step (showing (.edge ⟨0, 1, 1, 9, 0b111111110⟩))) = some (0x9C, some 0xFFAE) := by decide

/-- VA13, X11: length 25, no payload. -/
theorem test_wrong_length :
    words (step (showing (.edge ⟨0, 1, 1, 25, 0x1AB⟩))) = some (0xC0, some 0x0000) := by decide

/-- VA3, X7: one empty row. -/
theorem test_wrong_length_empty_row :
    words (step (showing (.edge (present Params.default (some [[]]))))) =
      some (0xC0, some 0x0000) := by decide

/-- VA10, X6: wrong in both ways. -/
theorem test_wrong_rows :
    words (step (showing (.edge ⟨0, 1, 2, 8, 0x1AA⟩))) = some (0xA0, some 0x0000) := by decide

/-- VA1: the absent buffer. -/
theorem test_wrong_rows_absent :
    words (step (showing (.edge (present Params.default none)))) = some (0xA0, some 0x0000) := by
  decide

/-- VR2: `rst` wins over a good request. -/
theorem test_reset_wins :
    words (step (showing (.edge ⟨1, 1, 1, 9, 0x1AB⟩))) = some (0x00, some 0x0000) := by decide

/-- R106, last line: without a trace register nothing is traced. -/
theorem test_no_trace_register :
    words (step { showing (.edge ⟨0, 1, 1, 9, 0x1AB⟩) with trc := none }) = some (0x97, none) := by
  decide

/-- S8, P5 call 3: the record and the trace of a Layer F call; the registers stay. -/
theorem test_frame_call :
    handed (step (showing (.call (some [[1, 1, 0, 1, 0, 1, 0, 1, 1]])))) =
      some (some (.ok ⟨"MightyMule-FM231", 11, 1⟩), some ⟨427, 0, 1, 11⟩) := by decide

/-- P5 call 6, without a trace. -/
theorem test_frame_call_no_trace :
    handed (step { showing (.call (some [[0, 0, 0, 0, 1, 1, 1, 1, 1]])) with trc := none }) =
      some (some (.ok ⟨"MightyMule-FM231", 15, 0⟩), none) := by decide

/-- P5 calls 4 and 5 (S9, S10): the two typed failures. -/
theorem test_failed_calls :
    handed (step (showing (.call
      (some [[1, 1, 0, 1, 0, 1, 0, 1, 1], [1, 1, 0, 1, 0, 1, 0, 1, 1]])))) =
      some (some (.err .wrongRowCount), none) ∧
    handed (step (showing (.call (some [[1, 1, 0, 1, 0, 1, 0, 1]])))) =
      some (some (.err .wrongLength), none) := by decide

/-- U4: an edge that drew no response and a trace, over an older response. -/
theorem test_unstable_edge :
    words (step (showing (.unstable ⟨none, some 0x010⟩))) = some (0x00, some 0x8420) := by decide

/-- U4 at Layer F: a call that drew a failure. -/
theorem test_unstable_call :
    handed (step (showing (.unstableCall ⟨.error .wrongLength, none⟩))) =
      some (some (.err .wrongLength), none) := by decide

/-- Each row of the table, placed by its number, is what the next step runs (R106 to R108, R105). -/
theorem test_table_rows_run :
    words (step (State.reset.withFetchWord 48 0x00000000000)) = some (0x00, some 0x0000) ∧
    words (step (State.reset.withFetchWord 48 0x20002001200)) = some (0x81, some 0x8010) ∧
    words (step (State.reset.withFetchWord 48 0x20002000000)) = some (0xC0, some 0x0000) ∧
    words (step (State.reset.withFetchWord 48 0x20000000000)) = some (0xA0, some 0x0000) ∧
    words (step ({ State.reset with rsp := 0x97 }.withFetchWord 8 1)) = some (0x00, some 0x0000) ∧
    handed (step (State.reset.withFetchWord 16 0x000)) =
      some (some (.ok ⟨"MightyMule-FM231", 0, 1⟩), some ⟨0, 0, 1, 0⟩) := by decide

/-- The reader of `RSP` on 95_test_vectors.md 2.7. -/
theorem test_read_rsp :
    readRsp 0x9F = .response (.ok ⟨"MightyMule-FM231", 15, 1⟩) ∧ readRsp 0xA1 = .invalid ∧
    readRsp 0xE0 = .invalid ∧ readRsp 0x01 = .invalid ∧ readRsp 0x00 = .noResponse := by decide

/-- The illegal trace words of 95_test_vectors.md 2.7, and a legal one. -/
theorem test_legal_trace : legalTrc 0xEADB ∧ ¬ legalTrc 0xEAEB ∧ ¬ legalTrc 0xEADA := by decide

/-- The five kinds of line of P3, edge by edge. -/
theorem test_program_lines :
    programInputs Params.default [.reset ⟨0, 1, 1, 9, 0x01F⟩, .idle 2, .decode none 1] =
      [.edge ⟨1, 1, 1, 9, 0x01F⟩, .edge ⟨0, 0, 0, 0, 0⟩, .edge ⟨0, 0, 0, 0, 0⟩,
       .edge ⟨0, 1, 0, 0, 0⟩] := by decide

/-! ### Witnesses: the hypotheses of the statements can be met -/

/-- DOC0's concrete scenario. -/
def goodBuffer : Option BitBuffer := some [[1, 1, 0, 1, 0, 1, 0, 1, 1]]

/-- A state with these acts, and an older response still shown. -/
def acting (l : List Input) : State :=
  { State.reset with rsp := 0x97, trc := some 0xEADB, inputs := l }

/-- ReadIsMostSignificantBitFirst: the last bit of the frame, the edge of the bound. -/
theorem wit_read_bounds :
    ∃ (h : 0 < rows goodBuffer), 0 + 9 ≤ len goodBuffer 0 h ∧ 8 < 9 ∧
      ¬ (1 + 9 ≤ len goodBuffer 0 h) := by decide

/-- RowCountFailureExactly and LengthFailureExactly: ports at each side of both comparisons. -/
theorem wit_request_ports :
    ∃ q1 q2 q3 q4 : Ports, (∀ q ∈ [q1, q2, q3, q4], q.rst = 0 ∧ q.reqValid = 1) ∧
      q1.rowCount = 0 ∧ q2.rowCount = 2 ∧ (q3.rowCount = 1 ∧ q3.row0Len = 8) ∧
      (q4.rowCount = 1 ∧ q4.row0Len = 10) :=
  ⟨⟨0, 1, 0, 9, 0⟩, ⟨0, 1, 2, 9, 0⟩, ⟨0, 1, 1, 8, 0⟩, ⟨0, 1, 1, 10, 0⟩, by decide⟩

/-- RowCountFailureExactly and LengthFailureExactly: buffers of each shape at the boundaries. -/
theorem wit_buffer_shapes :
    rows none ≠ 1 ∧ rows (some [[], []]) ≠ 1 ∧
    (∃ h : 0 < rows (some [[]]), rows (some [[]]) = 1 ∧ len (some [[]]) 0 h ≠ 9) ∧
    (∃ h : 0 < rows (some [List.replicate 10 1]), len (some [List.replicate 10 1]) 0 h ≠ 9) ∧
    decodeF (some [[]]) = .err .wrongLength := by decide

/-- WellShapedBufferDecodes. -/
theorem wit_well_shaped :
    ∃ h : 0 < rows goodBuffer, rows goodBuffer = 1 ∧ len goodBuffer 0 h = 9 := by decide

/-- PreambleReachesTraceOnly: X8's two frames. -/
theorem wit_same_low_bits :
    ∃ d d' : FrameData, d ≠ d' ∧ ∀ j, j < 5 → d.getLsbD j = d'.getLsbD j :=
  ⟨0b001001011, 0b110101011, by decide⟩

/-- IdleClearsRegisters. -/
theorem wit_idle_edge :
    ∃ (s : State) (q : Ports) (rest : List Input), s.inputs = .edge q :: rest ∧ q.rst = 0 ∧
      q.reqValid = 0 := ⟨acting [.edge ⟨0, 0, 1, 9, 5⟩], _, _, rfl, by decide⟩

/-- DecodeEdgeAnswers: each clause, at the values next to the constants. -/
theorem wit_decode_edges :
    (∃ (s : State) (q : Ports) (rest : List Input), s.inputs = .edge q :: rest ∧ q.rst = 0 ∧
      q.reqValid = 1 ∧ q.rowCount ≠ 1) ∧
    (∃ (s : State) (q : Ports) (rest : List Input), s.inputs = .edge q :: rest ∧ q.rst = 0 ∧
      q.reqValid = 1 ∧ q.rowCount = 1 ∧ q.row0Len ≠ 9) ∧
    (∃ (s : State) (q : Ports) (rest : List Input), s.inputs = .edge q :: rest ∧ q.rst = 0 ∧
      q.reqValid = 1 ∧ q.rowCount = 1 ∧ q.row0Len = 9) :=
  ⟨⟨acting [.edge ⟨0, 1, 2, 9, 5⟩], _, _, rfl, by decide⟩,
   ⟨acting [.edge ⟨0, 1, 1, 10, 5⟩], _, _, rfl, by decide⟩,
   ⟨acting [.edge ⟨0, 1, 1, 9, 5⟩], _, _, rfl, by decide⟩⟩

/-- ResetWinsAndClears, over a live request. -/
theorem wit_reset_edge :
    ∃ (s : State) (q : Ports) (rest : List Input), s.inputs = .edge q :: rest ∧ q.rst = 1 :=
  ⟨acting [.edge ⟨1, 1, 1, 9, 5⟩], _, _, rfl, by decide⟩

/-- InstructionsLeaveTheRest and ResetLeavesZeros: instructions that answer a next state. -/
theorem wit_exec_next :
    (∃ t, exec (.decodeOk 5) State.reset = .next t) ∧ (∃ t, exec (.frame 5) State.reset = .next t) ∧
    (∃ t, exec .reset (acting []) = .next t) ∧ (acting []).trc.isSome :=
  ⟨⟨_, rfl⟩, ⟨_, rfl⟩, ⟨_, rfl⟩, rfl⟩

/-- TraceWordRepeatsItself and LegalWordsAreThoseProduced: an instance with a trace register. -/
theorem wit_has_trace : ∃ s : State, s.trc.isSome := ⟨State.reset, rfl⟩

/-- IgnoredFieldsChangeNothing: each clause. -/
theorem wit_ignored_ports :
    (∃ q : Ports, q.rst = 0 ∧ q.reqValid = 1 ∧ (q.rowCount ≠ 1 ∨ q.row0Len ≠ 9)) ∧
    (∃ q : Ports, q.rst = 0 ∧ q.reqValid = 1 ∧ q.rowCount ≠ 1) ∧
    (∃ q : Ports, q.rst = 0 ∧ q.reqValid = 0) ∧ (∃ q q' : Ports, q.rst = 1 ∧ q'.rst = 1 ∧ q ≠ q') :=
  ⟨⟨⟨0, 1, 1, 8, 3⟩, by decide⟩, ⟨⟨0, 1, 0, 9, 3⟩, by decide⟩, ⟨⟨0, 0, 1, 9, 3⟩, by decide⟩,
   ⟨⟨1, 1, 1, 9, 3⟩, ⟨1, 0, 0, 0, 0⟩, by decide⟩⟩

/-- OperationMapSelectsClass, PresentationIsTruthful, LinesSelectTheirOperation: the least legal
widths. -/
theorem wit_params : ∃ p : Params, p.wf ∧ ¬ (Params.mk (p.wRows - 1) p.wLen).wf :=
  ⟨⟨2, 4⟩, by decide⟩

/-- DecodeInvertsEncode and EncodedInstructionRunsNext: every constructor, at the largest counts. -/
theorem wit_well_formed :
    (∀ i ∈ [Instr.idle 65535 65535 0x1FF, .decodeOk 0x1FF, .decodeWrongLen 8 0, .decodeWrongLen 10 0,
      .decodeWrongRows 0 9 0, .decodeWrongRows 2 9 0, .reset, .frame 0x1FF],
      i.wf Params.default) ∧ Params.default.wf := by decide

/-- EncodeInvertsDecode: a code of each space decodes. -/
theorem wit_codes_decode :
    decodeCode Params.default (.request 0x200020013AB) = .ok (.decodeOk 0x1AB) ∧
    decodeCode Params.default (.pin 1) = .ok .reset ∧
    decodeCode Params.default (.frame 0x1AB) = .ok (.frame 0x1AB) := by decide

/-- StepRunsDecodedInstruction: each clause. -/
theorem wit_step_runs :
    (∃ (s : State) (rest : List Input) (q : Ports), s.inputs = .edge q :: rest) ∧
    (∃ (s : State) (rest : List Input) (buf : Option BitBuffer) (i : Instr),
      s.inputs = .call buf :: rest ∧ decodeBuffer buf = .ok i) :=
  ⟨⟨acting [.edge idlePorts], _, _, rfl⟩, ⟨acting [.call goodBuffer], _, _, .frame 0x1AB, rfl, by decide⟩⟩

/-- CallReturnsDecode, with a buffer that decodes and one that does not. -/
theorem wit_calls :
    (∃ (s : State) (rest : List Input), s.inputs = .call goodBuffer :: rest) ∧
    (∃ (s : State) (rest : List Input), s.inputs = .call none :: rest) :=
  ⟨⟨acting [.call goodBuffer], _, rfl⟩, ⟨acting [.call none], _, rfl⟩⟩

/-- NoActIsAnIdleEdge. -/
theorem wit_no_act : ∃ s : State, s.inputs = [] := ⟨acting [], rfl⟩

/-- UnstableEdgeShowsSomeLegalWords: each clause, with words at the ends of the legal sets. -/
theorem wit_unstable_edges :
    (∃ (d : EdgeDraw) (s : State) (rest : List Input), s.inputs = .unstable d :: rest) ∧
    (∃ (d d' : EdgeDraw) (s : State) (rest : List Input),
      s.inputs = .unstable d :: .unstable d' :: rest) ∧
    legalRsp 0x00 ∧ legalRsp 0x9F ∧ legalTrc 0x0000 ∧ legalTrc 0xFFEF :=
  ⟨⟨⟨none, none⟩, acting [.unstable _], _, rfl⟩,
   ⟨⟨none, none⟩, ⟨some (.ok 5), none⟩, acting [.unstable _, .unstable _], _, rfl⟩, by decide⟩

/-- UnstableCallReturnsSomeResult: each clause. -/
theorem wit_unstable_calls :
    (∃ (d : CallDraw) (s : State) (rest : List Input), s.inputs = .unstableCall d :: rest) ∧
    legalResult (.err .wrongLength) ∧ legalResult (.ok ⟨"MightyMule-FM231", 15, 0⟩) ∧
    (∀ x ∈ some (traceOf 0x1AB), legalRecord x) := by
  refine ⟨⟨⟨.ok 5, none⟩, acting [.unstableCall _], _, rfl⟩, trivial, rfl, ?_⟩
  rintro x ⟨⟩
  rfl

/-- NextWordsDependOnInputsAlone and OneResponsePerRequest: two states that differ in both registers. -/
theorem wit_two_states :
    ∃ (s s' : State) (q : Ports) (rest : List Input), s.inputs = .edge q :: rest ∧
      s'.inputs = .edge q :: rest ∧ s.rsp ≠ s'.rsp ∧ s.trc ≠ s'.trc :=
  ⟨acting [.edge ⟨0, 1, 1, 9, 5⟩], State.reset.offer (.edge ⟨0, 1, 1, 9, 5⟩), _, _, rfl, rfl, by decide⟩

/-- RepeatedRequestSameAnswer: each clause. -/
theorem wit_repeated :
    (∃ (s : State) (q : Ports) (rest : List Input), s.inputs = .edge q :: .edge q :: rest) ∧
    (∃ (s : State) (buf : Option BitBuffer) (rest : List Input),
      s.inputs = .call buf :: .call buf :: rest) :=
  ⟨⟨acting [.edge idlePorts, .edge idlePorts], _, _, rfl⟩,
   ⟨acting [.call goodBuffer, .call goodBuffer], _, _, rfl⟩⟩

/-- PortsComputeDecode: DOC0's concrete scenario presented truthfully. -/
theorem wit_presented :
    ∃ (s : State) (q : Ports) (rest : List Input), s.params.wf ∧ Presents s.params goodBuffer q ∧
      s.inputs = .edge q :: rest := by
  refine ⟨acting [.edge ⟨0, 1, 1, 9, 0x1AB⟩], ⟨0, 1, 1, 9, 0x1AB⟩, [], by decide, ?_, rfl⟩
  refine ⟨rfl, rfl, by decide, by decide, ?_⟩
  intro h h1 hl k hk
  have hk' : k < 9 := by rw [← hl]; exact hk
  interval_cases k <;> rfl

/-- PortsComputeDecode: a count that the ports cannot hold, presented saturated (VA21). -/
theorem wit_presented_saturated :
    ∃ q : Ports, Presents ⟨2, 4⟩ (some [[], [], [], [], []]) q ∧ q.rowCount = 3 :=
  ⟨⟨0, 1, 3, 9, 0x1AB⟩, ⟨rfl, rfl, by decide, by decide, by decide⟩, rfl⟩

/-- PresentationIsTruthful: one row, so that the length clause speaks. -/
theorem wit_one_row : rows goodBuffer = 1 ∧ rows (some [[]]) = 1 := by decide

/-- StepKeepsInvariant: a state with legal registers and a request waiting. -/
theorem wit_invariant :
    ∃ s t : State, s.Inv ∧ step s = .next t := by
  refine ⟨acting [.edge ⟨0, 1, 1, 9, 5⟩], _, ⟨by decide, by decide, ?_, ?_, ?_, ?_⟩, rfl⟩
  · intro w hw; cases hw; decide
  · intro x hx
    obtain rfl : x = .edge ⟨0, 1, 1, 9, 5⟩ := by simpa [acting] using hx
    decide
  · intro r hr; cases hr
  · intro t ht; cases ht

end Sys2Proof.Tests
end

section
/-!
PROOFS. The invariant of 10_state.md R28, R29 and 30_encoding.md R72: each state operation keeps it,
and therefore every step does.
-/

namespace Sys2Proof.Machine

variable {s : State}

/-- Acts still to come were among the acts before. -/
theorem State.Inv.consume (hs : s.Inv) : s.consume.Inv :=
  { hs with inputs := fun x hx => hs.inputs x (List.mem_of_mem_tail hx) }

theorem State.Inv.setRsp (hs : s.Inv) {w : RspWord} (hw : legalRsp w) : (s.setRsp w).Inv :=
  { hs with rsp := hw }

/-- The written word is the only one the trace register can then hold (R29). -/
theorem State.Inv.setTrc (hs : s.Inv) {w : TrcWord} (hw : legalTrc w) : (s.setTrc w).Inv := by
  refine { hs with trc := fun v hv => ?_ }
  obtain ⟨_, _, rfl⟩ := Option.map_eq_some_iff.mp hv
  exact hw

theorem State.Inv.clear (hs : s.Inv) : s.clear.Inv :=
  (hs.setRsp (legalRsp_answerWord none)).setTrc (legalTrc_tracedWord none)

theorem State.Inv.accept (hs : s.Inv) (d : FrameData) : (s.accept d).Inv :=
  (hs.setRsp (legalRsp_acceptWord d)).setTrc (legalTrc_traceWord d)

theorem State.Inv.fail (hs : s.Inv) (e : DecodeError) : (s.fail e).Inv :=
  (hs.setRsp (legalRsp_failWord e)).setTrc (legalTrc_tracedWord none)

theorem State.Inv.drawResponse (hs : s.Inv) (d : EdgeDraw) : (s.drawResponse d).Inv :=
  (hs.setRsp (legalRsp_answerWord d.answer)).setTrc (legalTrc_tracedWord d.trace)

/-- A Layer F call hands over a legal result and, where there is a trace, a legal record (R95, R111). -/
theorem State.Inv.deliver (hs : s.Inv) {r : Result} {o : Option TraceRecord} (hr : legalResult r)
    (ho : ∀ t ∈ o, legalRecord t) : (s.deliver r o).Inv := by
  refine { hs with returned := ?_, emitted := ?_ }
  · rintro _ ⟨⟩
    exact hr
  · intro t ht
    rw [State.deliver_emitted] at ht
    split at ht
    · exact ho t ht
    · cases ht

/-- A trace record made from a frame is a legal one (R111). -/
theorem legalRecord_of_mem_map_traceOf {o : Option FrameData} :
    ∀ t ∈ o.map traceOf, legalRecord t := by
  intro t ht
  obtain ⟨_, _, rfl⟩ := Option.map_eq_some_iff.mp ht
  rfl

/-- Settles O36: taking the act keeps the invariant, and so does each of the five operations a step
can end in (`step_cases`). -/
theorem stepKeepsInvariant : Obligations.StepKeepsInvariant := by
  intro s t hs ht
  have hc : s.consume.Inv := hs.consume
  rcases step_cases s with h | ⟨d, h⟩ | ⟨e, h⟩ | ⟨a, o, h⟩ | ⟨d, h⟩ <;>
    obtain rfl := Host.Outcome.next.inj (h.symm.trans ht)
  · exact hc.clear
  · exact hc.accept d
  · exact hc.fail e
  · exact hc.deliver (legalResult_resultOf a) legalRecord_of_mem_map_traceOf
  · exact hc.drawResponse d

end Sys2Proof.Machine
end

section
/-!
PROOFS. The registers and constants of 10_state.md: the words an edge leaves as a function of the
ports (R33), what reset leaves (R34), and the bytes of `MODEL` (R32).
-/

namespace Sys2Proof.Machine

/-- The words `RSP` and `TRC` take at an edge that samples the ports `q` (R106 to R108). -/
def edgeWords (q : Ports) : RspWord × TrcWord :=
  if q.rst = 1 ∨ q.reqValid = 0 then (0x00, 0x0000)
  else if q.rowCount ≠ 1 then (failWord .wrongRowCount, 0x0000)
  else if q.row0Len ≠ 9 then (failWord .wrongLength, 0x0000)
  else (acceptWord q.row0Bits, traceWord q.row0Bits)

/-- Whatever operation the ports select, it writes the two words of `edgeWords` and nothing else. -/
theorem exec_decodePorts (q : Ports) (s : State) :
    exec (decodePorts q) s = .next ((s.setRsp (edgeWords q).1).setTrc (edgeWords q).2) := by
  rcases ports_cases q with h | ⟨h, hv⟩ | ⟨h, hv, hr⟩ | ⟨h, hv, hr, hl⟩ | ⟨h, hv, hr, hl⟩
  · rw [decodePorts_reset h, exec_reset]
    simp [edgeWords, h, State.clear]
  · rw [decodePorts_idle h hv, exec_idle]
    simp [edgeWords, hv, State.clear]
  · rw [decodePorts_wrongRows h hv hr, exec_decodeWrongRows]
    simp [edgeWords, h, hv, hr, State.fail]
  · rw [decodePorts_wrongLen h hv hr hl, exec_decodeWrongLen]
    simp [edgeWords, h, hv, hr, hl, State.fail]
  · rw [decodePorts_ok h hv hr hl, exec_decodeOk]
    simp [edgeWords, h, hv, hr, hl, State.accept]

/-- Settles O29: the function is `edgeWords`, which no state enters. -/
theorem nextWordsDependOnInputsAlone : Obligations.NextWordsDependOnInputsAlone := by
  refine ⟨edgeWords, fun q s rest h => ?_⟩
  exact ⟨_, (step_edge h).trans (exec_decodePorts q s.consume), rfl, rfl⟩

/-- The state after reset is a safe one (R34). -/
theorem State.reset_inv : State.reset.Inv where
  params := by decide
  rsp := .inl rfl
  trc := by
    rintro _ ⟨⟩
    exact .inl rfl
  inputs := nofun
  returned := nofun
  emitted := nofun

/-- Settles O37: the invariant by `State.reset_inv`; the other fields are what reset puts there. -/
theorem resetMeetsInvariant : Obligations.ResetMeetsInvariant :=
  ⟨State.reset_inv, rfl, rfl, rfl, rfl⟩

/-- The trace word `0x0000` shows 0 in each of its five fields (R29). -/
theorem traceOutputs_zero : traceOutputs 0x0000 = ⟨0, 0, 0, 0, 0⟩ := by decide

/-- After clearing, the sink sees 0 in every field of both registers (R31, R108). -/
theorem outputs_clear (s : State) :
    outputs s.clear =
      { rspValid := 0, rspStatus := 0, rspId := 0, rspBatteryOk := 0,
        trace := s.trc.map (fun _ => ⟨0, 0, 0, 0, 0⟩),
        model := Config.model, desc := Config.desc } := by
  simp only [outputs, State.clear_rsp, State.clear_trc, Option.map_map, Function.comp_def,
    traceOutputs_zero]
  rfl

/-- Settles O38: `RESET` answers the cleared state (`exec_reset`), whose outputs are those of
`outputs_clear`. -/
theorem resetLeavesZeros : Obligations.ResetLeavesZeros := by
  refine ⟨⟨rfl, rfl⟩, fun s t ht => ?_, fun s => ⟨rfl, rfl⟩⟩
  obtain rfl : s.clear = t := Host.Outcome.next.inj ((exec_reset s).symm.trans ht)
  rw [outputs_clear]
  refine ⟨rfl, rfl, rfl, rfl, rfl, fun hs => ?_⟩
  obtain ⟨w, hw⟩ := Option.isSome_iff_exists.mp hs
  simp [hw]

/-- The character codes of the model string, in ASCII (log 12). -/
theorem modelString_codes :
    Config.modelString.toList.map Char.toNat =
      [0x4D, 0x69, 0x67, 0x68, 0x74, 0x79, 0x4D, 0x75, 0x6C, 0x65, 0x2D, 0x46, 0x4D, 0x32, 0x33,
        0x31] := by
  decide

/-- Settles O39: the codes are those of `modelString_codes`, and each of the sixteen bytes of the
constant `MODEL` is compared with its own. -/
theorem modelHoldsTheString : Obligations.ModelHoldsTheString := by
  refine ⟨rfl, ?_, fun s k => ?_⟩
  · simpa using congrArg List.length modelString_codes
  · have hmodel : (outputs s).model = Config.model := rfl
    rw [modelString_codes, hmodel]
    revert k
    decide

end Sys2Proof.Machine
end

section
/-!
PROOFS. The reads and the calls of 20_memory.md: the bit order of a read and its packed form (R43),
the same answer to the same request (R48), and a call on a buffer mutated meanwhile (R49).
-/

namespace Sys2Proof.Machine

/-- In the `n` bits from bit `k` on, bit `k+j` of the row has weight `2^(n-1-j)` (R43). -/
theorem valueOfBits_slice_testBit {bits : List Bit} {k n j : Nat} (hk : k + n ≤ bits.length)
    (hj : j < n) :
    (valueOfBits ((bits.drop k).take n)).testBit (n - 1 - j) = (bits[k + j] == 1) := by
  have hlen : ((bits.drop k).take n).length = n := by
    rw [List.length_take, List.length_drop]
    omega
  have hbit := valueOfBits_testBit ((bits.drop k).take n) j (by omega)
  simpa only [hlen, List.getElem_take, List.getElem_drop] using hbit

/-- Settles O1: the read is the number that the `n` bits from bit `k` on write, and it fits in `n`
bits. -/
theorem readIsMostSignificantBitFirst : Obligations.ReadIsMostSignificantBitFirst := by
  intro buf r k n h hk j hj
  have hweight : n - 1 - j < n := by omega
  rw [memRead, BitVec.getLsbD_ofNat, decide_eq_true hweight, Bool.true_and]
  exact valueOfBits_slice_testBit hk hj

/-- Settles O9: the packed row has nine bits, and they write the formula's number
(`packedRow_value`). -/
theorem packedBytesReadAsFormula : Obligations.PackedBytesReadAsFormula := by
  intro byte0 byte1
  have hlen : (packedRow byte0 byte1).length = 9 := rfl
  rw [readFrame_row hlen, packedRow_value, BitVec.ofNat_toNat, BitVec.setWidth_eq, packedData]

/-- Settles O30: an edge leaves the words of its ports (`exec_decodePorts`) and a call hands over
what `decode` makes of its buffer (`step_call`); neither depends on what was there before. -/
theorem repeatedRequestSameAnswer : Obligations.RepeatedRequestSameAnswer := by
  constructor
  · intro s q rest h
    refine ⟨_, _, (step_edge h).trans (exec_decodePorts q _),
      (step_edge (rest := rest) ?_).trans (exec_decodePorts q _), rfl, ?_⟩
    · simp [h]
    · exact Option.map_map ..
  · intro s buf rest h
    refine ⟨_, _, step_call h, step_call (rest := rest) ?_, rfl, rfl⟩
    simp [h]

/-- Handing over a result once the act has been taken, as the whole next state (R31, R105). -/
theorem State.consume_deliver {s : State} {x : Input} {rest : List Input}
    (h : s.inputs = x :: rest) (r : Result) (t : Option TraceRecord) :
    s.consume.deliver r t = { s with
      inputs := rest, returned := some r, emitted := if s.trc.isSome then t else none } :=
  State.eq_of_fields rfl rfl rfl (by simp [h]) rfl rfl

/-- Every legal trace record, or none, is that of some frame, so a free trace is any of them (U4). -/
theorem exists_frame_of_legalRecord {tr : Option TraceRecord} (h : ∀ x ∈ tr, legalRecord x) :
    ∃ o : Option FrameData, o.map traceOf = tr := by
  cases tr with
  | none => exact ⟨none, rfl⟩
  | some x => exact ⟨some x.data, congrArg some (h x rfl).symm⟩

/-- Settles O40: the call hands over the result and the record of its draw (`step_unstableCall`);
these are legal, and every legal pair is that of some draw. -/
theorem unstableCallReturnsSomeResult : Obligations.UnstableCallReturnsSomeResult := by
  constructor
  · intro d s rest h
    exact ⟨resultOf d.answer, d.trace.map traceOf, legalResult_resultOf _,
      legalRecord_of_mem_map_traceOf,
      (step_unstableCall h).trans (congrArg _ (State.consume_deliver h _ _))⟩
  · intro r tr hr htr
    obtain ⟨a, rfl⟩ := exists_answer_of_legalResult hr
    obtain ⟨o, rfl⟩ := exists_frame_of_legalRecord htr
    exact ⟨⟨a, o⟩, fun s rest h =>
      (step_unstableCall h).trans (congrArg _ (State.consume_deliver h _ _))⟩

end Sys2Proof.Machine
end

section
/-!
PROOFS. Encoding and decoding of 30_encoding.md: they invert each other (R60, R62, R76), and the
operation map by match and mask selects the class that the values select (R68).
-/

namespace Sys2Proof

open Machine

/-! ### Which instructions are well formed -/

variable {p : Params}

/-- A check that is passed, and then the next ones. -/
theorem ite_some_eq_none_iff {c : Prop} [Decidable c] {e : IllFormed} {x : Option IllFormed} :
    (if c then some e else x) = none ↔ ¬c ∧ x = none := by
  by_cases hc : c <;> simp [hc]

theorem Instr.wf_idle {rc len : Nat} {b : FrameData} :
    (Instr.idle rc len b).wf p ↔ rc < 2 ^ p.wRows ∧ len < 2 ^ p.wLen := by
  simp [Instr.wf, Instr.check, ite_some_eq_none_iff]

theorem Instr.wf_decodeWrongLen {len : Nat} {b : FrameData} :
    (Instr.decodeWrongLen len b).wf p ↔ len < 2 ^ p.wLen ∧ len ≠ 9 := by
  simp [Instr.wf, Instr.check, ite_some_eq_none_iff]

theorem Instr.wf_decodeWrongRows {rc len : Nat} {b : FrameData} :
    (Instr.decodeWrongRows rc len b).wf p ↔ rc < 2 ^ p.wRows ∧ len < 2 ^ p.wLen ∧ rc ≠ 1 := by
  simp [Instr.wf, Instr.check, ite_some_eq_none_iff]

/-- Legal widths hold the two counts of a good request (R11). -/
theorem Params.wf.counts_fit (hp : p.wf) : 1 < 2 ^ p.wRows ∧ 9 < 2 ^ p.wLen := by
  obtain ⟨hrows, hlen⟩ := hp
  have h1 : 2 ^ 2 ≤ 2 ^ p.wRows := Nat.pow_le_pow_right (by decide) hrows
  have h2 : 2 ^ 4 ≤ 2 ^ p.wLen := Nat.pow_le_pow_right (by decide) hlen
  omega

/-! ### Decoding inverts encoding -/

/-- A request word whose counts fit decodes to what its fields select as ports (R62, R68). -/
theorem decodeCode_request_reqWord {v : Bit} {rc len : Nat} {b : FrameData}
    (hr : rc < 2 ^ p.wRows) (hl : len < 2 ^ p.wLen) :
    decodeCode p (.request (reqWord p v rc len b)) = .ok (decodePorts ⟨0, v, rc, len, b⟩) := by
  rw [decodeCode, unpackReq_reqWord, Nat.mod_eq_of_lt hr, Nat.mod_eq_of_lt hl]

/-- Settles O20: the encoding of a request is the word of its own fields, which decodes to what
these fields select (`decodeCode_request_reqWord`); being well formed says that the fields fit and
that they select the instruction's own class. -/
theorem decodeInvertsEncode : Obligations.DecodeInvertsEncode := by
  intro p i hp hi
  obtain ⟨h1, h9⟩ := hp.counts_fit
  cases i with
  | idle rc len b =>
    obtain ⟨hr, hl⟩ := Instr.wf_idle.mp hi
    rw [encode, decodeCode_request_reqWord hr hl, decodePorts_idle rfl rfl]
  | decodeOk b =>
    rw [encode, decodeCode_request_reqWord h1 h9, decodePorts_ok rfl rfl rfl rfl]
  | decodeWrongLen len b =>
    obtain ⟨hl, hne⟩ := Instr.wf_decodeWrongLen.mp hi
    rw [encode, decodeCode_request_reqWord h1 hl, decodePorts_wrongLen rfl rfl rfl hne]
  | decodeWrongRows rc len b =>
    obtain ⟨hr, hl, hne⟩ := Instr.wf_decodeWrongRows.mp hi
    rw [encode, decodeCode_request_reqWord hr hl, decodePorts_wrongRows rfl rfl hne]
  | reset => rfl
  | frame data => rfl

/-! ### Encoding inverts decoding -/

/-- What ports select is well formed if their counts fit (R30, R68). -/
theorem decodePorts_wf {q : Ports} (hq : q.fits p) : (decodePorts q).wf p := by
  obtain ⟨hr, hl⟩ := hq
  rcases ports_cases q with h | ⟨h, hv⟩ | ⟨h, hv, h1⟩ | ⟨h, hv, h1, h9⟩ | ⟨h, hv, h1, h9⟩
  · rw [decodePorts_reset h]; rfl
  · rw [decodePorts_idle h hv]; exact Instr.wf_idle.mpr ⟨hr, hl⟩
  · rw [decodePorts_wrongRows h hv h1]; exact Instr.wf_decodeWrongRows.mpr ⟨hr, hl, h1⟩
  · rw [decodePorts_wrongLen h hv h1 h9]; exact Instr.wf_decodeWrongLen.mpr ⟨hl, h9⟩
  · rw [decodePorts_ok h hv h1 h9]; rfl

/-- What ports without `rst` select encodes to the word of their fields (R62). -/
theorem encode_decodePorts {q : Ports} (h : q.rst = 0) :
    encode p (decodePorts q) =
      .request (reqWord p q.reqValid q.rowCount q.row0Len q.row0Bits) := by
  rcases ports_cases q with h' | ⟨-, hv⟩ | ⟨-, hv, h1⟩ | ⟨-, hv, h1, h9⟩ | ⟨-, hv, h1, h9⟩
  · rw [h] at h'; cases h'
  · rw [decodePorts_idle h hv, encode, hv]
  · rw [decodePorts_wrongRows h hv h1, encode, hv]
  · rw [decodePorts_wrongLen h hv h1 h9, encode, hv, h1]
  · rw [decodePorts_ok h hv h1 h9, encode, hv, h1, h9]

/-- Settles O21: a request word is the word of its own fields (`reqWord_unpackReq`), which are what
the decoded instruction encodes to; the pin and the frame space hold one instruction for each word
that decodes. -/
theorem encodeInvertsDecode : Obligations.EncodeInvertsDecode := by
  intro p c i h
  cases c with
  | request w =>
    obtain rfl := Except.ok.inj h
    exact ⟨decodePorts_wf (unpackReq_fits p w),
      by rw [encode_decodePorts rfl, reqWord_unpackReq]⟩
  | pin w =>
    rcases bit_cases w with rfl | rfl
    · cases h
    · obtain rfl := Except.ok.inj h
      exact ⟨rfl, rfl⟩
  | frame w =>
    obtain rfl := Except.ok.inj h
    exact ⟨rfl, rfl⟩

/-- Settles O22: the six words are concrete, and the decoder is run on each. -/
theorem writtenOutWordsDecode : Obligations.WrittenOutWordsDecode := by
  refine ⟨?_, ?_, ?_, ?_, ?_, ?_⟩ <;> decide

/-! ### The operation map -/

/-- The class of a request by the values of its fields (R68). -/
def Ports.reqClass (q : Ports) : ReqClass :=
  if q.reqValid = 0 then .idle
  else if q.rowCount = 1 ∧ q.row0Len = 9 then .ok
  else if q.rowCount = 1 then .wrongLen
  else .wrongRows

/-- Ports without `rst` select an instruction of the class their values give. -/
theorem decodePorts_reqClass {q : Ports} (h : q.rst = 0) :
    (decodePorts q).reqClass = some q.reqClass := by
  rcases ports_cases q with h' | ⟨-, hv⟩ | ⟨-, hv, h1⟩ | ⟨-, hv, h1, h9⟩ | ⟨-, hv, h1, h9⟩
  · rw [h] at h'; cases h'
  · rw [decodePorts_idle h hv]; simp [Instr.reqClass, Ports.reqClass, hv]
  · rw [decodePorts_wrongRows h hv h1]; simp [Instr.reqClass, Ports.reqClass, hv, h1]
  · rw [decodePorts_wrongLen h hv h1 h9]; simp [Instr.reqClass, Ports.reqClass, hv, h1, h9]
  · rw [decodePorts_ok h hv h1 h9]; simp [Instr.reqClass, Ports.reqClass, hv, h1, h9]

/-- A row of the map asks only for the fields its mask covers (R68). -/
theorem reqWord_selects {cls : ReqClass} {v v' m : Bit} {rc rc' k len len' n : Nat}
    {b : FrameData} :
    ReqRow.selects ⟨cls, reqWord p v' rc' len' 0, reqWord p m k n 0⟩ (reqWord p v rc len b) =
      decide (v &&& m = v' ∧ (rc &&& k) % 2 ^ p.wRows = rc' % 2 ^ p.wRows ∧
        (len &&& n) % 2 ^ p.wLen = len' % 2 ^ p.wLen) := by
  simp [ReqRow.selects, reqWord_and, reqWord_inj, Bool.beq_eq_decide_eq]

/-- The first row that matches a word is that of the class its fields give. -/
theorem classOfWord_reqWord (hp : p.wf) {v : Bit} {rc len : Nat} {b : FrameData}
    (hr : rc < 2 ^ p.wRows) (hl : len < 2 ^ p.wLen) :
    classOfWord p (reqWord p v rc len b) = some (Ports.reqClass ⟨0, v, rc, len, b⟩) := by
  obtain ⟨h1, h9⟩ := hp.counts_fit
  simp only [classOfWord, reqTable, List.find?_cons, reqWord_selects, and_ones,
    Nat.mod_eq_of_lt hr, Nat.mod_eq_of_lt hl, Nat.mod_eq_of_lt h1, Nat.mod_eq_of_lt h9]
  rcases bit_cases v with rfl | rfl
  · simp [Ports.reqClass]
  · by_cases hr1 : rc = 1
    · by_cases hl9 : len = 9
      · simp [Ports.reqClass, hr1, hl9]
      · simp [Ports.reqClass, hr1, hl9]
    · simp [Ports.reqClass, hr1]

/-- Settles O19: every word is the word of its own fields (`reqWord_unpackReq`), so both sides are
the class of these fields (`classOfWord_reqWord`, `decodePorts_reqClass`); the words at the default
widths are concrete. -/
theorem operationMapSelectsClass : Obligations.OperationMapSelectsClass := by
  refine ⟨fun p w hp => ?_, by decide⟩
  obtain ⟨hr, hl⟩ := unpackReq_fits p w
  have hclass : classOfWord p w = some (unpackReq p w).reqClass := by
    have h := classOfWord_reqWord hp (v := (unpackReq p w).reqValid) (b := (unpackReq p w).row0Bits)
      hr hl
    rwa [reqWord_unpackReq] at h
  exact ⟨hclass, by rw [hclass, decodePorts_reqClass rfl]⟩

end Sys2Proof
end

section
/-!
PROOFS. The frame and its fields (30_encoding.md R64 to R66): `data` by weight, where the fields are
cut, and the trace word that repeats them.
-/

namespace Sys2Proof.Machine

/-- A row of nine bits is presented as the number its bits write (R65, R148). -/
theorem present_row0Bits_of_length {p : Params} {r : Row} (h : r.length = 9) :
    (present p (some [r])).row0Bits = BitVec.ofNat 9 (valueOfBits r) := by
  have htake : (r ++ List.replicate 9 0).take 9 = r := List.take_left' h
  exact congrArg (fun bits => BitVec.ofNat 9 (valueOfBits bits)) htake

/-- Nine bits by weight (R65). -/
theorem valueOfBits_nine (f0 f1 f2 f3 f4 f5 f6 f7 f8 : Bit) :
    valueOfBits [f0, f1, f2, f3, f4, f5, f6, f7, f8] =
      f0.toNat * 256 + f1.toNat * 128 + f2.toNat * 64 + f3.toNat * 32 + f4.toNat * 16 +
        f5.toNat * 8 + f6.toNat * 4 + f7.toNat * 2 + f8.toNat * 1 := by
  simp only [valueOfBits_cons, valueOfBits_nil, List.length_cons, List.length_nil]
  omega

/-- Settles O2: the value read is the number the nine bits write (`readFrame_row`), which nine bits
hold, and the port carries the same (`present_row0Bits_of_length`). -/
theorem frameAssembledByWeight : Obligations.FrameAssembledByWeight := by
  intro f0 f1 f2 f3 f4 f5 f6 f7 f8 p
  have hlt : valueOfBits [f0, f1, f2, f3, f4, f5, f6, f7, f8] < 2 ^ 9 := valueOfBits_lt _
  refine ⟨_, readFrame_row rfl, ?_, ?_, present_row0Bits_of_length rfl⟩
  · rw [BitVec.toNat_ofNat, Nat.mod_eq_of_lt hlt, valueOfBits_nine]
  · rw [BitVec.toNat_ofNat, Nat.mod_eq_of_lt hlt]
    omega

/-- The battery bit as a shift and a mask (R66). -/
theorem getBatt_eq_shift (data : FrameData) : (getBatt data).zeroExtend 9 = (data >>> 4) &&& 1 := by
  apply BitVec.eq_of_toNat_eq
  have hlt : data.toNat / 16 % 2 < 512 := by omega
  simp [getBatt, Nat.shiftRight_eq_div_pow, hlt]

/-- The id as a mask (R66). -/
theorem getId_eq_mask (data : FrameData) : (getId data).zeroExtend 9 = data &&& 0xF := by
  apply BitVec.eq_of_toNat_eq
  have hmask : data.toNat &&& 15 = data.toNat % 16 := Nat.and_two_pow_sub_one_eq_mod _ 4
  have hlt : data.toNat % 16 < 512 := by omega
  simp [getId, hmask, hlt]

/-- Settles O3: each field is an `extractLsb'` of `data`, so its bits are `data`'s from the stated
place on. -/
theorem fieldsCutAtFixedPositions : Obligations.FieldsCutAtFixedPositions := by
  intro data
  refine ⟨fun j hj => ?_, ?_, fun j hj => ?_, getBatt_eq_shift data, getId_eq_mask data⟩
  · simp [getPreamble, hj]
  · simp [getBatt]
  · simp [getId, hj]

/-- The bits of a trace word, field by field (R64). -/
theorem trcWord_getLsbD (v r k : Bit) (d : FrameData) (i : BitVec 4) (n : Nat) :
    (trcWord v d r k i).getLsbD n =
      if n < 4 then i.getLsbD n
      else if n - 4 < 1 then k.getLsbD (n - 4)
      else if n - 4 - 1 < 1 then r.getLsbD (n - 4 - 1)
      else if n - 4 - 1 - 1 < 9 then d.getLsbD (n - 4 - 1 - 1)
      else v.getLsbD (n - 4 - 1 - 1 - 9) := by
  have happend : (trcWord v d r k i).getLsbD n =
    BitVec.getLsbD (w := 1 + 9 + 1 + 1 + 4) (v ++ d ++ r ++ k ++ i) n := rfl
  simp only [happend, BitVec.getLsbD_append]

/-- The data field of a trace word (R64). -/
theorem trcWord_data (v r k : Bit) (d : FrameData) (i : BitVec 4) :
    (trcWord v d r k i).extractLsb' 6 9 = d := by
  apply BitVec.eq_of_getLsbD_eq
  intro j hj
  rw [BitVec.getLsbD_extractLsb', trcWord_getLsbD, if_neg (by omega), if_neg (by omega),
    if_neg (by omega), if_pos (by omega), decide_eq_true hj, Bool.true_and,
    show 6 + j - 4 - 1 - 1 = j by omega]

/-- The id field of a trace word (R64). -/
theorem trcWord_id (v r k : Bit) (d : FrameData) (i : BitVec 4) :
    (trcWord v d r k i).extractLsb' 0 4 = i := by
  apply BitVec.eq_of_getLsbD_eq
  intro j hj
  rw [BitVec.getLsbD_extractLsb', trcWord_getLsbD, Nat.zero_add, if_pos hj, decide_eq_true hj,
    Bool.true_and]

/-- Bits of a trace word inside its data field are bits of the data (R64). -/
theorem traceWord_slice_data (data : FrameData) {k n : Nat} (h : k + n ≤ 9) :
    (traceWord data).extractLsb' (6 + k) n = data.extractLsb' k n := by
  have hdata : (traceWord data).extractLsb' 6 9 = data := trcWord_data ..
  rw [← congrArg (BitVec.extractLsb' k n) hdata]
  apply BitVec.eq_of_getLsbD_eq
  intro j hj
  simp only [BitVec.getLsbD_extractLsb', Nat.add_assoc, decide_eq_true (show k + j < 9 by omega),
    Bool.true_and]

/-- Settles O17: the layout is that of `traceWord`; bits 5 and 4 and the id come from the same bits
of `data` as the data field does. -/
theorem traceWordRepeatsItself : Obligations.TraceWordRepeatsItself := by
  intro s data hs
  obtain ⟨w, hw⟩ := Option.isSome_iff_exists.mp hs
  refine ⟨s.accept data, traceWord data, exec_decodeOk s data, by simp [hw], rfl, ?_, ?_, ?_⟩
  · rw [traceWord, trcWord_getLsbD, trcWord_getLsbD]
    simp [getBatt]
  · have hinvert : ∀ b : Bit, (invert b).getLsbD 0 = !b.getLsbD 0 := by decide
    rw [traceWord, trcWord_getLsbD, trcWord_getLsbD]
    exact hinvert _
  · rw [traceWord_slice_data (k := 0) data (by decide)]
    exact trcWord_id ..

end Sys2Proof.Machine
end

section
/-!
PROOFS. What edges do with the ports of 30_encoding.md: the fields they ignore (R73), the words they
can leave (R72), the edges that the line form stands for (R75), and the edge of no act (R67).
-/

namespace Sys2Proof.Machine

/-! ### The two words of an edge, by the class of its ports -/

theorem edgeWords_reset {q : Ports} (h : q.rst = 1) : edgeWords q = (0x00, 0x0000) := by
  simp [edgeWords, h]

theorem edgeWords_idle {q : Ports} (hv : q.reqValid = 0) : edgeWords q = (0x00, 0x0000) := by
  simp [edgeWords, hv]

theorem edgeWords_wrongRows {q : Ports} (h : q.rst = 0) (hv : q.reqValid = 1)
    (hr : q.rowCount ≠ 1) : edgeWords q = (failWord .wrongRowCount, 0x0000) := by
  simp [edgeWords, h, hv, hr]

theorem edgeWords_wrongLen {q : Ports} (h : q.rst = 0) (hv : q.reqValid = 1)
    (hr : q.rowCount = 1) (hl : q.row0Len ≠ 9) :
    edgeWords q = (failWord .wrongLength, 0x0000) := by
  simp [edgeWords, h, hv, hr, hl]

theorem edgeWords_ok {q : Ports} (h : q.rst = 0) (hv : q.reqValid = 1) (hr : q.rowCount = 1)
    (hl : q.row0Len = 9) : edgeWords q = (acceptWord q.row0Bits, traceWord q.row0Bits) := by
  simp [edgeWords, h, hv, hr, hl]

/-! ### Ignored fields -/

/-- Ports with the same two words do the same, from any state. -/
theorem exec_decodePorts_congr {q q' : Ports} {words : RspWord × TrcWord}
    (h : edgeWords q = words) (h' : edgeWords q' = words) (s : State) :
    exec (decodePorts q) s = exec (decodePorts q') s := by
  rw [exec_decodePorts, exec_decodePorts, h, h']

/-- The battery bit and the id lie below the preamble (R66). -/
theorem getBatt_append (pre : BitVec 4) (low : BitVec 5) :
    getBatt (pre ++ low) = low.extractLsb' 4 1 :=
  BitVec.extractLsb'_append_eq_of_add_le (by decide)

theorem getId_append (pre : BitVec 4) (low : BitVec 5) :
    getId (pre ++ low) = low.extractLsb' 0 4 :=
  BitVec.extractLsb'_append_eq_of_add_le (by decide)

/-- The response to a good request takes nothing from the preamble (R94). -/
theorem acceptWord_append (pre pre' : BitVec 4) (low : BitVec 5) :
    acceptWord (pre ++ low) = acceptWord (pre' ++ low) := by
  simp only [acceptWord, getBatt_append, getId_append]

/-- Masking a trace word masks its fields. -/
theorem trcWord_and (v v' r r' k k' : Bit) (d d' : FrameData) (i i' : BitVec 4) :
    trcWord v d r k i &&& trcWord v' d' r' k' i' =
      trcWord (v &&& v') (d &&& d') (r &&& r') (k &&& k') (i &&& i') := by
  apply BitVec.eq_of_getLsbD_eq
  intro n hn
  simp only [BitVec.getLsbD_and, trcWord_getLsbD]
  split_ifs <;> rfl

/-- Outside `TRC[14:11]` the trace takes nothing from the preamble (R94, R111). -/
theorem traceWord_append_and (pre pre' : BitVec 4) (low : BitVec 5) :
    traceWord (pre ++ low) &&& 0x87FF = traceWord (pre' ++ low) &&& 0x87FF := by
  have hmask : (0x87FF : TrcWord) = trcWord 1 (0#4 ++ 31#5) 1 1 15 := by decide
  have hlow : ∀ pre : BitVec 4, (pre ++ low) &&& (0#4 ++ 31#5) = 0#4 ++ (low &&& 31#5) := fun pre =>
    BitVec.and_append.trans (by rw [BitVec.and_zero])
  simp only [hmask, traceWord, trcWord_and, getBatt_append, getId_append]
  rw [hlow, hlow]

/-- `TRC[14:11]` shows the preamble (R94, R111). -/
theorem traceWord_append_preamble (pre : BitVec 4) (low : BitVec 5) :
    (traceWord (pre ++ low)).extractLsb' 11 4 = pre := by
  rw [traceWord_slice_data (k := 5) _ (by decide)]
  exact BitVec.extractLsb'_append_eq_left

/-- Settles O18: (a) is the good request split into preamble and the rest; in (b) to (e) the two
words of the edge (`exec_decodePorts`) are the same whatever the ignored fields hold. -/
theorem ignoredFieldsChangeNothing : Obligations.IgnoredFieldsChangeNothing := by
  refine ⟨fun s pre pre' low => ?_, fun s q b h hv hbad => ?_, fun s q n b h hv hr => ?_,
    fun s q k n b h hv => ?_, fun s q q' h h' => ?_⟩
  · refine ⟨_, _, exec_decodeOk s _, exec_decodeOk s _, ?_, ?_, ?_⟩
    · exact State.eq_of_fields (acceptWord_append pre pre' low) rfl rfl rfl rfl rfl
    · simp
    · intro w hw w' hw'
      obtain ⟨_, _, rfl⟩ := Option.map_eq_some_iff.mp hw
      obtain ⟨_, _, rfl⟩ := Option.map_eq_some_iff.mp hw'
      exact ⟨traceWord_append_and pre pre' low, traceWord_append_preamble pre low,
        traceWord_append_preamble pre' low⟩
  · by_cases hr : q.rowCount = 1
    · have hl : q.row0Len ≠ 9 := hbad.resolve_left (not_not_intro hr)
      exact exec_decodePorts_congr (edgeWords_wrongLen (q := { q with row0Bits := b }) h hv hr hl)
        (edgeWords_wrongLen h hv hr hl) s
    · exact exec_decodePorts_congr (edgeWords_wrongRows (q := { q with row0Bits := b }) h hv hr)
        (edgeWords_wrongRows h hv hr) s
  · exact exec_decodePorts_congr
      (edgeWords_wrongRows (q := { q with row0Len := n, row0Bits := b }) h hv hr)
      (edgeWords_wrongRows h hv hr) s
  · exact exec_decodePorts_congr
      (edgeWords_idle (q := { q with rowCount := k, row0Len := n, row0Bits := b }) hv)
      (edgeWords_idle hv) s
  · exact exec_decodePorts_congr (edgeWords_reset h) (edgeWords_reset h') s

/-! ### The words that edges leave -/

/-- Ports at which an edge gives the answer. -/
def portsFor : Option Answer → Ports
  | none => idlePorts
  | some (.error .wrongRowCount) => ⟨0, 1, 0, 0, 0⟩
  | some (.error .wrongLength) => ⟨0, 1, 1, 0, 0⟩
  | some (.ok data) => ⟨0, 1, 1, 9, data⟩

/-- The trace that goes with an answer: that of the frame, if there is one (R106, R111). -/
def answerTrace (a : Option Answer) : Option FrameData := a.bind Except.toOption

theorem edgeWords_portsFor (a : Option Answer) :
    edgeWords (portsFor a) = (answerWord a, tracedWord (answerTrace a)) := by
  rcases a with _ | ((_ | _) | d)
  · exact edgeWords_idle rfl
  · exact edgeWords_wrongRows rfl rfl (by decide)
  · exact edgeWords_wrongLen rfl rfl rfl (by decide)
  · exact edgeWords_ok rfl rfl rfl rfl

/-- Every edge gives some answer and the trace that goes with it (R106 to R108). -/
theorem exists_answer_edgeWords (q : Ports) :
    ∃ a, edgeWords q = (answerWord a, tracedWord (answerTrace a)) := by
  rcases ports_cases q with h | ⟨-, hv⟩ | ⟨h, hv, hr⟩ | ⟨h, hv, hr, hl⟩ | ⟨h, hv, hr, hl⟩
  · exact ⟨none, edgeWords_reset h⟩
  · exact ⟨none, edgeWords_idle hv⟩
  · exact ⟨some (.error .wrongRowCount), edgeWords_wrongRows h hv hr⟩
  · exact ⟨some (.error .wrongLength), edgeWords_wrongLen h hv hr hl⟩
  · exact ⟨some (.ok q.row0Bits), edgeWords_ok h hv hr hl⟩

/-- A word of `RSP` is legal exactly when some ports make an edge leave it (R28, R72). -/
theorem legalRsp_iff_exists_edgeWords {w : RspWord} :
    legalRsp w ↔ ∃ q, (edgeWords q).1 = w := by
  constructor
  · intro hw
    obtain ⟨a, rfl⟩ := exists_answer_of_legalRsp hw
    exact ⟨portsFor a, by rw [edgeWords_portsFor]⟩
  · rintro ⟨q, rfl⟩
    obtain ⟨a, ha⟩ := exists_answer_edgeWords q
    rw [ha]
    exact legalRsp_answerWord a

/-- A word of `TRC` is legal exactly when some ports make an edge leave it (R72). -/
theorem legalTrc_iff_exists_edgeWords {w : TrcWord} :
    legalTrc w ↔ ∃ q, (edgeWords q).2 = w := by
  constructor
  · intro hw
    obtain ⟨t, rfl⟩ := exists_trace_of_legalTrc hw
    have htrace : answerTrace (t.map .ok) = t := by cases t <;> rfl
    exact ⟨portsFor (t.map .ok), by rw [edgeWords_portsFor, htrace]⟩
  · rintro ⟨q, rfl⟩
    obtain ⟨a, ha⟩ := exists_answer_edgeWords q
    rw [ha]
    exact legalTrc_tracedWord (answerTrace a)

/-- An edge offered to the block is the next thing it answers, by the two words of its ports. -/
theorem step_offer_edge (s : State) (q : Ports) :
    step (s.offer (.edge q)) = .next ((s.setRsp (edgeWords q).1).setTrc (edgeWords q).2) :=
  (step_edge (State.offer_inputs s _)).trans (exec_decodePorts q s)

/-- Settles O35: what an edge leaves is the two words of its ports (`step_offer_edge`), and these
are exactly the legal ones. -/
theorem legalWordsAreThoseProduced : Obligations.LegalWordsAreThoseProduced := by
  refine ⟨fun s w => ?_, fun s w hs => ?_⟩
  · simp [step_offer_edge, legalRsp_iff_exists_edgeWords]
  · obtain ⟨v, hv⟩ := Option.isSome_iff_exists.mp hs
    simp [step_offer_edge, legalTrc_iff_exists_edgeWords, hv]

/-! ### The line form -/

/-- The line form presents its buffer truthfully (R75, R148). -/
theorem present_presents (p : Params) (buf : Option BitBuffer) :
    Presents p buf (present p buf) where
  rst := rfl
  reqValid := rfl
  rowCount := rfl
  row0Len := by
    intro h h1
    obtain ⟨r, rfl⟩ := eq_of_rows_eq_one h1
    rfl
  row0Bits := by
    intro h h1 hl k hk
    obtain ⟨r, rfl⟩ := eq_of_rows_eq_one h1
    have hr : r.length = 9 := hl
    have hkr : k < r.length := hk
    have hbit := valueOfBits_testBit r k hkr
    rw [present_row0Bits_of_length hr, BitVec.getLsbD_ofNat, decide_eq_true (by omega),
      Bool.true_and]
    rw [hr] at hbit
    exact hbit

/-- Settles O34: a `RESET` line is one edge with `rst` at 1, and the edges of the other two lines
are copies of one, the idle edge or the truthful presentation (`present_presents`). -/
theorem linesSelectTheirOperation : Obligations.LinesSelectTheirOperation := by
  intro p _
  refine ⟨fun held => ?_, fun n => ⟨?_, fun x hx => ?_⟩, fun buf n => ⟨?_, fun x hx => ?_⟩⟩
  · exact ⟨_, rfl, decodePorts_reset rfl⟩
  · exact List.length_replicate
  · exact ⟨_, List.eq_of_mem_replicate hx, rfl, rfl, decodePorts_idle rfl rfl⟩
  · exact List.length_replicate
  · exact ⟨_, List.eq_of_mem_replicate hx, rfl, rfl, present_presents p buf⟩

/-- Settles O26: with no act to take, the step is that of an idle edge (`step_nil`). -/
theorem noActIsAnIdleEdge : Obligations.NoActIsAnIdleEdge := by
  intro s h
  rw [step_nil h]
  exact congrArg _ (State.eq_of_fields rfl rfl rfl (by simp [h]) rfl rfl)

end Sys2Proof.Machine
end

section
/-!
PROOFS. The two checks of 40_validation.md: each typed failure is answered for exactly the shapes
that its check rejects, by the call and by the edge, and neither leaves a trace (R81 to R83, R85).
-/

namespace Sys2Proof.Machine

/-! ### The call -/

/-- `decode` fails exactly as reading the frame does (R85). -/
theorem decodeF_eq_err_iff {buf : Option BitBuffer} {e : DecodeError} :
    decodeF buf = .err e ↔ readFrame buf = .error e := by
  cases h : readFrame buf with
  | error e' => simp [decodeF_of_error h]
  | ok d => simp [decodeF_of_ok h]

/-- A call that fails traces nothing (R85, R111). -/
theorem traceF_of_decodeF_err {buf : Option BitBuffer} {e : DecodeError}
    (h : decodeF buf = .err e) : traceF buf = none :=
  traceF_of_error (decodeF_eq_err_iff.mp h)

theorem decodeF_eq_wrongRowCount_iff {buf : Option BitBuffer} :
    decodeF buf = .err .wrongRowCount ↔ rows buf ≠ 1 := by
  rw [decodeF_eq_err_iff]
  refine ⟨fun h => ?_, readFrame_wrongRows⟩
  rcases readFrame_cases buf with ⟨hr, -⟩ | ⟨r, -, -, h'⟩ | ⟨r, -, -, h'⟩
  · exact hr
  · cases h.symm.trans h'
  · cases h.symm.trans h'

theorem decodeF_eq_wrongLength_iff {buf : Option BitBuffer} :
    decodeF buf = .err .wrongLength ↔
      ∃ h : 0 < rows buf, rows buf = 1 ∧ len buf 0 h ≠ 9 := by
  rw [decodeF_eq_err_iff]
  constructor
  · intro h
    rcases readFrame_cases buf with ⟨-, h'⟩ | ⟨r, rfl, hl, -⟩ | ⟨r, -, -, h'⟩
    · cases h.symm.trans h'
    · exact ⟨Nat.one_pos, rfl, hl⟩
    · cases h.symm.trans h'
  · rintro ⟨_, hr, hl⟩
    obtain ⟨r, rfl⟩ := eq_of_rows_eq_one hr
    exact readFrame_wrongLength hl

/-! ### The edge -/

/-- The words of a request, by the outcome of the two checks on its counts (R83, R106). -/
theorem edgeWords_request_cases {q : Ports} (h : q.rst = 0) (hv : q.reqValid = 1) :
    (q.rowCount ≠ 1 ∧ edgeWords q = (failWord .wrongRowCount, 0x0000)) ∨
    (q.rowCount = 1 ∧ q.row0Len ≠ 9 ∧ edgeWords q = (failWord .wrongLength, 0x0000)) ∨
    (q.rowCount = 1 ∧ q.row0Len = 9 ∧
      edgeWords q = (acceptWord q.row0Bits, traceWord q.row0Bits)) := by
  by_cases hr : q.rowCount = 1
  · by_cases hl : q.row0Len = 9
    · exact .inr (.inr ⟨hr, hl, edgeWords_ok h hv hr hl⟩)
    · exact .inr (.inl ⟨hr, hl, edgeWords_wrongLen h hv hr hl⟩)
  · exact .inl ⟨hr, edgeWords_wrongRows h hv hr⟩

/-- Settles O4: the call fails so exactly for another row count (`decodeF_eq_wrongRowCount_iff`) and
then traces nothing; at the edge, of the words of a request only those of a wrong row count have
`RSP = 0xA0` (`edgeWords_request_cases`, `acceptWord_ne`). -/
theorem rowCountFailureExactly : Obligations.RowCountFailureExactly := by
  refine ⟨fun buf => ⟨decodeF_eq_wrongRowCount_iff, fun hr =>
    traceF_of_decodeF_err (decodeF_eq_wrongRowCount_iff.mpr hr)⟩, rfl, fun q s h hv =>
    ⟨_, exec_decodePorts q s, ?_⟩⟩
  rcases edgeWords_request_cases h hv with ⟨hr, hw⟩ | ⟨hr, hl, hw⟩ | ⟨hr, hl, hw⟩
  · simp [hw, hr]
  · simp [hw, hr]
  · simp [hw, hr, acceptWord_ne]

/-- Settles O5: the call fails so exactly for one row of another length
(`decodeF_eq_wrongLength_iff`) and then traces nothing; at the edge, of the words of a request only
those of a wrong length have `RSP = 0xC0` (`edgeWords_request_cases`, `acceptWord_ne`). -/
theorem lengthFailureExactly : Obligations.LengthFailureExactly := by
  refine ⟨fun buf => ⟨decodeF_eq_wrongLength_iff, traceF_of_decodeF_err⟩, fun q s h hv =>
    ⟨_, exec_decodePorts q s, ?_⟩⟩
  rcases edgeWords_request_cases h hv with ⟨hr, hw⟩ | ⟨hr, hl, hw⟩ | ⟨hr, hl, hw⟩
  · simp [hw, hr]
  · simp [hw, hr, hl]
  · simp [hw, hr, hl, acceptWord_ne]

end Sys2Proof.Machine
end

section
/-!
PROOFS. What the record of 41_extraction.md takes from the frame: it is a one-to-one function of
`data[4:0]` onto all 32 records (R97), and the preamble shows in the trace only (R94).
-/

namespace Sys2Proof.Machine

/-! ### The record -/

/-- `decode` of a frame's row never fails (R105). -/
theorem decodeF_rowOfFrame (data : FrameData) :
    decodeF (some [rowOfFrame data]) = .ok (messageOf data) :=
  decodeF_of_ok (readFrame_rowOfFrame data)

/-- `data[4:0]` is the battery bit above the id, so the record gives it back (R97). -/
theorem toNat_mod_32_eq_messageOf (data : FrameData) :
    data.toNat % 32 = 16 * (1 - (messageOf data).batteryOk.val) + (messageOf data).id.val := by
  rw [messageOf_id, messageOf_batteryOk]
  omega

/-- The record is a one-to-one function of `data[4:0]` (R97). -/
theorem messageOf_eq_messageOf_iff {data data' : FrameData} :
    messageOf data = messageOf data' ↔ data.toNat % 32 = data'.toNat % 32 := by
  constructor
  · intro h
    rw [toNat_mod_32_eq_messageOf, toNat_mod_32_eq_messageOf data', h]
  · intro h
    refine messageOf_eq_iff.mpr ⟨rfl, ?_, ?_⟩
    · rw [messageOf_id]
      omega
    · rw [messageOf_batteryOk]
      omega

/-- The frame with an empty preamble that has this id and battery flag (R97). -/
def frameFor (id : Fin 16) (batteryOk : Fin 2) : FrameData :=
  BitVec.ofNat 9 (16 * (1 - batteryOk.val) + id.val)

theorem frameFor_toNat (id : Fin 16) (batteryOk : Fin 2) :
    (frameFor id batteryOk).toNat = 16 * (1 - batteryOk.val) + id.val := by
  rw [frameFor, BitVec.toNat_ofNat, Nat.mod_eq_of_lt (by omega)]

/-- Every id and flag are those of the record of their frame (R97). -/
theorem messageOf_frameFor (id : Fin 16) (batteryOk : Fin 2) :
    messageOf (frameFor id batteryOk) = ⟨Config.modelString, id, batteryOk⟩ := by
  rw [messageOf_eq_iff, frameFor_toNat]
  refine ⟨rfl, ?_, ?_⟩
  · show id.val = _
    omega
  · show batteryOk.val = _
    omega

/-- Settles O7: a frame's result is its record (`decodeF_rowOfFrame`), which is one-to-one on
`data[4:0]` (`messageOf_eq_messageOf_iff`) and reaches every id and flag (`messageOf_frameFor`). -/
theorem resultIsLowFiveBits : Obligations.ResultIsLowFiveBits := by
  refine ⟨fun data => ?_, fun data data' => ?_, fun id batteryOk => ?_⟩
  · exact ⟨messageOf data, decodeF_rowOfFrame data, messageOf_id data, messageOf_batteryOk data,
      toNat_mod_32_eq_messageOf data⟩
  · rw [decodeF_rowOfFrame, decodeF_rowOfFrame, Result.ok.injEq, messageOf_eq_messageOf_iff]
  · refine ⟨frameFor id batteryOk, ?_, ?_⟩
    · rw [frameFor_toNat]
      omega
    · rw [decodeF_rowOfFrame, messageOf_frameFor, Config.modelString]

/-! ### The preamble -/

/-- Frames that agree on each of the bits 4 to 0 agree on the number these bits write. -/
theorem toNat_mod_32_eq_of_getLsbD {data data' : FrameData}
    (h : ∀ j, j < 5 → data.getLsbD j = data'.getLsbD j) :
    data.toNat % 32 = data'.toNat % 32 := by
  refine Nat.eq_of_testBit_eq fun j => ?_
  rw [show 32 = 2 ^ 5 from rfl, Nat.testBit_mod_two_pow, Nat.testBit_mod_two_pow]
  by_cases hj : j < 5
  · rw [BitVec.testBit_toNat, BitVec.testBit_toNat, h j hj]
  · simp [hj]

/-- The response word takes no more than `data[4:0]` from the frame (R94, R106). -/
theorem acceptWord_eq_of_toNat_mod_32_eq {data data' : FrameData}
    (h : data.toNat % 32 = data'.toNat % 32) : acceptWord data = acceptWord data' := by
  apply BitVec.eq_of_toNat_eq
  rw [acceptWord_toNat, acceptWord_toNat]
  omega

/-- After a good request the trace register, where there is one, shows the data whole (R94, R111). -/
theorem State.accept_trc_data (s : State) (data : FrameData) :
    ∀ w ∈ (s.accept data).trc, w.extractLsb' 6 9 = data := by
  intro w hw
  rw [State.accept_trc] at hw
  obtain ⟨_, _, rfl⟩ := Option.map_eq_some_iff.mp hw
  exact trcWord_data ..

/-- Settles O8: record and response word depend on `data[4:0]` alone (`messageOf_eq_messageOf_iff`,
`acceptWord_eq_of_toNat_mod_32_eq`), while both traces hold all of `data`. -/
theorem preambleReachesTraceOnly : Obligations.PreambleReachesTraceOnly := by
  intro data data' s h
  have hlow : data.toNat % 32 = data'.toNat % 32 := toNat_mod_32_eq_of_getLsbD h
  refine ⟨_, _, exec_decodeOk s data, exec_decodeOk s data', ?_, ?_, s.accept_trc_data data,
    s.accept_trc_data data', ?_⟩
  · rw [decodeF_rowOfFrame, decodeF_rowOfFrame, messageOf_eq_messageOf_iff.mpr hlow]
  · rw [State.accept_rsp, State.accept_rsp, acceptWord_eq_of_toNat_mod_32_eq hlow]
  · rw [traceF_of_ok (readFrame_rowOfFrame data)]
    rfl

end Sys2Proof.Machine
end

section
/-!
PROOFS. The operations of 42_decode_operation.md: what each instruction writes and leaves (R105 to
R108), what the next step runs (R109), and that the ports compute `decode` (R110).
-/

namespace Sys2Proof.Machine

/-! ### Taking an act -/

/-- Taking the next act leaves the acts after it and everything else. -/
theorem State.consume_of_cons {s : State} {x : Input} {rest : List Input}
    (h : s.inputs = x :: rest) : s.consume = { s with inputs := rest } := by
  rw [State.consume, h, List.tail_cons]

@[simp] theorem State.consume_offer (s : State) (x : Input) : (s.offer x).consume = s := rfl

/-- An edge, as the whole next state, by the two words of its ports (R106 to R109). -/
theorem step_edge_of_edgeWords {s : State} {q : Ports} {rest : List Input} {r : RspWord}
    {c : TrcWord} (h : s.inputs = .edge q :: rest) (hw : edgeWords q = (r, c)) :
    step s = .next { s with inputs := rest, rsp := r, trc := s.trc.map (fun _ => c) } := by
  rw [step_edge h, exec_decodePorts, hw, State.consume_of_cons h]
  rfl

/-- A call on a buffer that holds a frame runs that frame (R105). -/
theorem step_call_of_decodeBuffer {s : State} {buf : Option BitBuffer} {i : Instr}
    {rest : List Input} (h : s.inputs = .call buf :: rest) (hi : decodeBuffer buf = .ok i) :
    step s = exec i s.consume := by
  simp only [step, State.nextInput_of_cons s h, hi]

/-- Settles O28: whichever operation the step ends in (`step_cases`), it answers a state. -/
theorem everyStepCompletes : Obligations.EveryStepCompletes := by
  intro s
  rcases step_cases s with h | ⟨d, h⟩ | ⟨e, h⟩ | ⟨a, o, h⟩ | ⟨d, h⟩ <;> exact ⟨_, h⟩

/-- Settles O23: the two kinds of act by `step_edge` and `step_call_of_decodeBuffer`. -/
theorem stepRunsDecodedInstruction : Obligations.StepRunsDecodedInstruction := by
  intro s rest
  refine ⟨fun q h => ?_, fun buf i h hi => ?_⟩
  · rw [step_edge h, State.consume_of_cons h]
  · rw [step_call_of_decodeBuffer h hi, State.consume_of_cons h]

/-- The act that a code stands for makes the next step run what the code decodes to (R76). -/
theorem step_offer_input {p : Params} {c : Code p} {i : Instr} (hc : decodeCode p c = .ok i)
    (s : State) : step (s.offer c.input) = exec i s := by
  cases c with
  | request w =>
    obtain rfl := Except.ok.inj hc
    exact step_edge (State.offer_inputs s _)
  | pin w =>
    rcases bit_cases w with rfl | rfl
    · cases hc
    · obtain rfl := Except.ok.inj hc
      exact step_edge (State.offer_inputs s _)
  | frame w =>
    obtain rfl := Except.ok.inj hc
    exact step_call_of_decodeBuffer (State.offer_inputs s _)
      (decodeBuffer_of_ok (readFrame_rowOfFrame w))

/-- Settles O24: the encoding decodes to the instruction (`decodeInvertsEncode`), so the act it
stands for runs it (`step_offer_input`). -/
theorem encodedInstructionRunsNext : Obligations.EncodedInstructionRunsNext :=
  fun p i s hp hi => step_offer_input (decodeInvertsEncode p i hp hi) s

/-- Settles O25: the call hands over what `decode` answers (`step_call`), and that is all it writes
(`State.consume_deliver`). -/
theorem callReturnsDecode : Obligations.CallReturnsDecode :=
  fun _ _ _ h => (step_call h).trans (congrArg _ (State.consume_deliver h _ _))

/-! ### The instructions that clear or fail -/

/-- Settles O10: `IDLE` clears, and so does an edge with no request (`edgeWords_idle`). -/
theorem idleClearsRegisters : Obligations.IdleClearsRegisters :=
  ⟨exec_idle, fun _ _ _ h _ hv => step_edge_of_edgeWords h (edgeWords_idle hv)⟩

/-- Settles O13: both classes are `State.fail`, which writes the code of its failure. -/
theorem failedDecodesWriteTheirCode : Obligations.FailedDecodesWriteTheirCode :=
  fun s rc len b => ⟨exec_decodeWrongRows s rc len b, exec_decodeWrongLen s len b⟩

/-- Settles O14: `RESET` clears as `IDLE` does, and so does an edge with `rst` at 1, whatever the
request ports hold (`edgeWords_reset`). -/
theorem resetWinsAndClears : Obligations.ResetWinsAndClears :=
  ⟨exec_reset, fun _ _ _ h hr => step_edge_of_edgeWords h (edgeWords_reset hr),
    fun s rc len b => (exec_reset s).trans (exec_idle s rc len b).symm⟩

/-! ### What an instruction leaves unchanged -/

/-- An instruction that writes the two words leaves every other field and the existence of `TRC`. -/
theorem exec_writes_leave_rest {i : Instr} {s t : State} {r : RspWord} {c : TrcWord}
    (hi : exec i s = .next ((s.setRsp r).setTrc c)) (ht : exec i s = .next t) :
    t.params = s.params ∧ t.inputs = s.inputs ∧ t.trc.isSome = s.trc.isSome ∧
      t.returned = s.returned ∧ t.emitted = s.emitted := by
  obtain rfl := Host.Outcome.next.inj (hi.symm.trans ht)
  simp

/-- Settles O16: the clocked instructions write two words (`exec_writes_leave_rest`), and a frame
only hands over its result. -/
theorem instructionsLeaveTheRest : Obligations.InstructionsLeaveTheRest := by
  intro i s t ht
  cases i with
  | idle rc len b => exact exec_writes_leave_rest (exec_idle s rc len b) ht
  | decodeOk d => exact exec_writes_leave_rest (exec_decodeOk s d) ht
  | decodeWrongLen len b => exact exec_writes_leave_rest (exec_decodeWrongLen s len b) ht
  | decodeWrongRows rc len b => exact exec_writes_leave_rest (exec_decodeWrongRows s rc len b) ht
  | reset => exact exec_writes_leave_rest (exec_reset s) ht
  | frame d =>
    obtain rfl := Host.Outcome.next.inj ((exec_frame s d).symm.trans ht)
    exact ⟨rfl, rfl, rfl, rfl, rfl⟩

/-! ### The fields of a frame and of a response word, as numbers -/

theorem getId_toNat (data : FrameData) : (getId data).toNat = data.toNat % 16 := by
  simp [getId]

theorem getBatt_toNat (data : FrameData) : (getBatt data).toNat = data.toNat / 16 % 2 := by
  simp [getBatt, Nat.shiftRight_eq_div_pow]

theorem invert_toNat : ∀ b : Bit, (invert b).toNat = 1 - b.toNat := by decide

theorem invert_getBatt_toNat (data : FrameData) :
    (invert (getBatt data)).toNat = 1 - data.toNat / 16 % 2 := by
  rw [invert_toNat, getBatt_toNat]

/-- The fields of a response word are the ones it was made of (R63). -/
theorem rspWord_fields : ∀ (v : Bit) (st : BitVec 2) (i : BitVec 4) (k : Bit),
    rspValid (rspWord v st i k) = v ∧ rspStatus (rspWord v st i k) = st ∧
      rspId (rspWord v st i k) = i ∧ rspBatteryOk (rspWord v st i k) = k := by
  decide

/-- Settles O12: the instruction writes `acceptWord` and `traceWord`, known as numbers. -/
theorem decodeOkWritesBothWords : Obligations.DecodeOkWritesBothWords :=
  fun s data => ⟨acceptWord data, traceWord data, exec_decodeOk s data, acceptWord_toNat data,
    traceWord_toNat data⟩

/-- Settles O11: each outcome is the two words of its ports (`step_edge_of_edgeWords`); the fields
of a good response are those of the frame (`rspWord_fields`). -/
theorem decodeEdgeAnswers : Obligations.DecodeEdgeAnswers := by
  intro s q rest h h0 hv
  refine ⟨fun hr => ?_, fun hr hl => ?_, fun hr hl => ?_⟩
  · exact step_edge_of_edgeWords h (edgeWords_wrongRows h0 hv hr)
  · exact step_edge_of_edgeWords h (edgeWords_wrongLen h0 hv hr hl)
  · obtain ⟨hvalid, hstatus, hid, hok⟩ :=
      rspWord_fields 1 statusOk (getId q.row0Bits) (invert (getBatt q.row0Bits))
    rw [← acceptWord] at hvalid hstatus hid hok
    refine ⟨acceptWord q.row0Bits, traceWord q.row0Bits,
      step_edge_of_edgeWords h (edgeWords_ok h0 hv hr hl), hvalid, hstatus, ?_, ?_, ?_, rfl⟩
    · rw [hid, getId_toNat]
    · rw [hok, invert_getBatt_toNat]
    · rw [hid, hok, getId_toNat, invert_getBatt_toNat, acceptWord_toNat]

/-- Settles O15: the frame hands over its record and trace (`exec_frame`), whose fields are cut from
`data`. -/
theorem frameReturnsRecord : Obligations.FrameReturnsRecord :=
  fun s data => ⟨messageOf data, traceOf data, exec_frame s data, messageOf_model data,
    messageOf_id data, messageOf_batteryOk data, rfl, getBatt_toNat data,
    invert_getBatt_toNat data, getId_toNat data⟩

/-! ### The call on a well-shaped buffer -/

/-- A well-shaped buffer is read whole (R90). -/
theorem readFrame_eq_memRead {buf : Option BitBuffer} (h : 0 < rows buf) (h1 : rows buf = 1)
    (hl : len buf 0 h = 9) : readFrame buf = .ok (memRead buf 0 0 9 h hl.ge) := by
  obtain ⟨r, rfl⟩ := eq_of_rows_eq_one h1
  have hr : r.length = 9 := hl
  have htake : r.take 9 = r := List.take_of_length_le hr.le
  rw [readFrame_row hr]
  exact congrArg (fun bits => Except.ok (BitVec.ofNat 9 (valueOfBits bits))) htake.symm

/-- The frame read from a row has the row's bits, the first most significant (R43, R90). -/
theorem memRead_nine_getLsbD {buf : Option BitBuffer} (h : 0 < rows buf) (hl : len buf 0 h = 9)
    (k : Nat) (hk : k < len buf 0 h) :
    (memRead buf 0 0 9 h hl.ge).getLsbD (8 - k) = (bitRead buf 0 k h hk == 1) := by
  have hbit := readIsMostSignificantBitFirst buf 0 0 9 h hl.ge k (hl ▸ hk)
  simpa only [Nat.zero_add] using hbit

/-- Settles O6: the data is what is read (`readFrame_eq_memRead`, `memRead_nine_getLsbD`), and the
record and the trace are cut from it. -/
theorem wellShapedBufferDecodes : Obligations.WellShapedBufferDecodes := by
  intro buf h h1 hl
  have hread := readFrame_eq_memRead h h1 hl
  exact ⟨_, _, fun k hk => memRead_nine_getLsbD h hl k (hl ▸ hk), decodeF_of_ok hread,
    messageOf_model _, messageOf_id _, messageOf_batteryOk _, _, traceF_of_ok hread, rfl,
    getBatt_toNat _, rfl, rfl⟩

/-! ### The ports compute `decode` -/

/-- A truthful presentation of a well-shaped buffer carries the data that `decode` reads (R148). -/
theorem Presents.row0Bits_eq_memRead {p : Params} {buf : Option BitBuffer} {q : Ports}
    (hq : Presents p buf q) (h : 0 < rows buf) (h1 : rows buf = 1) (hl : len buf 0 h = 9) :
    q.row0Bits = memRead buf 0 0 9 h hl.ge := by
  apply BitVec.eq_of_getLsbD_eq
  intro i hi
  have hk : 8 - i < len buf 0 h := by omega
  have hport := hq.row0Bits h h1 hl (8 - i) hk
  rwa [← memRead_nine_getLsbD h hl (8 - i) hk, show 8 - (8 - i) = i by omega] at hport

/-- At legal widths the counts of a good request lie below the saturated ones (R11, R42). -/
theorem right_counts_lt_saturated {p : Params} (hp : p.wf) :
    1 < 2 ^ p.wRows - 1 ∧ 9 < 2 ^ p.wLen - 1 := by
  obtain ⟨hrows, hlen⟩ := hp
  have h2 : 2 ^ 2 ≤ 2 ^ p.wRows := Nat.pow_le_pow_right (by decide) hrows
  have h4 : 2 ^ 4 ≤ 2 ^ p.wLen := Nat.pow_le_pow_right (by decide) hlen
  omega

/-- The words of an edge at a truthful presentation are those of what is read from the buffer: the
ports pass and fail the checks as the buffer does, saturated counts included (R42, R110). -/
theorem Presents.edgeWords_eq {p : Params} {buf : Option BitBuffer} {q : Ports}
    (hq : Presents p buf q) (hp : p.wf) :
    edgeWords q =
      (answerWord (some (readFrame buf)), tracedWord (answerTrace (some (readFrame buf)))) := by
  obtain ⟨hone, hnine⟩ := right_counts_lt_saturated hp
  have hcount : q.rowCount = 1 ↔ rows buf = 1 := by
    rw [hq.rowCount]
    exact saturate_eq_iff hone
  by_cases h1 : rows buf = 1
  · have h : 0 < rows buf := by omega
    have hlength : q.row0Len = 9 ↔ len buf 0 h = 9 := by
      rw [hq.row0Len h h1]
      exact saturate_eq_iff hnine
    by_cases hl : len buf 0 h = 9
    · rw [edgeWords_ok hq.rst hq.reqValid (hcount.mpr h1) (hlength.mpr hl),
        hq.row0Bits_eq_memRead h h1 hl, readFrame_eq_memRead h h1 hl]
      rfl
    · have hread : readFrame buf = .error .wrongLength :=
        decodeF_eq_err_iff.mp (decodeF_eq_wrongLength_iff.mpr ⟨h, h1, hl⟩)
      rw [edgeWords_wrongLen hq.rst hq.reqValid (hcount.mpr h1) (mt hlength.mp hl), hread]
      rfl
  · rw [edgeWords_wrongRows hq.rst hq.reqValid (mt hcount.mp h1), readFrame_wrongRows h1]
    rfl

/-- The word of an answer is a failure's code exactly when the answer is that failure (R110). -/
theorem resultOf_eq_err_iff {a : Answer} {e : DecodeError} :
    resultOf a = .err e ↔ answerWord (some a) = failWord e := by
  constructor
  · intro h
    cases a with
    | error e' => rw [Result.err.inj h]; rfl
    | ok d => cases h
  · intro h
    have hread := readRsp_answerWord a
    rw [h, ← answerWord, readRsp_answerWord] at hread
    exact (RspReading.response.inj hread).symm

/-- A failure's word is above every word of a success (R72). -/
theorem failWord_toNat_ge (e : DecodeError) : 160 ≤ (failWord e).toNat := by
  cases e <;> decide

/-- The word of an answer is that of a record exactly when the answer is the record (R110). -/
theorem resultOf_eq_ok_iff {a : Answer} {m : DecodedMessage} :
    resultOf a = .ok m ↔ m.model = Config.modelString ∧
      (answerWord (some a)).toNat = 0x80 + 2 * m.id.val + m.batteryOk.val := by
  have hid : m.id.val < 16 := m.id.isLt
  have hok : m.batteryOk.val < 2 := m.batteryOk.isLt
  cases a with
  | error e =>
    have hge := failWord_toNat_ge e
    refine ⟨nofun, fun ⟨_, hword⟩ => ?_⟩
    rw [answerWord] at hword
    omega
  | ok d =>
    rw [resultOf, Result.ok.injEq, messageOf_eq_iff, answerWord, acceptWord_toNat]
    refine and_congr_right fun _ => ?_
    omega

/-- The record that a result carries, none for a failure (R149). -/
def recordOf : Result → Option DecodedMessage
  | .ok m => some m
  | .err _ => none

/-- The sink takes the record of the result it reads (R149). -/
theorem sinkRecord_of_readRsp {t : State} {r : Result} (h : readRsp t.rsp = .response r) :
    sinkRecord t = recordOf r := by
  rw [sinkRecord, h]
  cases r <;> rfl

/-- Settles O32: a truthful presentation leaves the word of what `decode` reads
(`Presents.edgeWords_eq`), and that word tells the results apart. -/
theorem portsComputeDecode : Obligations.PortsComputeDecode := by
  intro s buf q rest hp hq h
  have hstep := step_edge_of_edgeWords h (hq.edgeWords_eq hp)
  have hread := readRsp_answerWord (readFrame buf)
  exact ⟨_, hstep, resultOf_eq_err_iff, resultOf_eq_err_iff, fun _ => resultOf_eq_ok_iff, hread,
    sinkRecord_of_readRsp hread⟩

end Sys2Proof.Machine
end

section
/-!
PROOFS. Requests and hazards of 70_reset_and_hazards.md: edges with unstable inputs (R147), the
truthful presentation of a buffer (R148), and one response per request (R150).
-/

namespace Sys2Proof.Machine

/-! ### Edges with unstable inputs -/

/-- An edge with unstable inputs, as the whole next state, by the words it drew (R147, log 8). -/
theorem step_unstable_of_cons {s : State} {d : EdgeDraw} {rest : List Input}
    (h : s.inputs = .unstable d :: rest) :
    step s = .next { s with
      inputs := rest, rsp := answerWord d.answer,
      trc := s.trc.map (fun _ => tracedWord d.trace) } := by
  rw [step_unstable h, State.consume_of_cons h]
  rfl

/-- Every pair of legal words is that of some draw (U4, log 8). -/
theorem exists_draw_of_legal {r : RspWord} {c : TrcWord} (hr : legalRsp r) (hc : legalTrc c) :
    ∃ d : EdgeDraw, answerWord d.answer = r ∧ tracedWord d.trace = c := by
  obtain ⟨a, ha⟩ := exists_answer_of_legalRsp hr
  obtain ⟨t, ht⟩ := exists_trace_of_legalTrc hc
  exact ⟨⟨a, t⟩, ha, ht⟩

/-- Settles O27: the edge leaves the two words of its draw (`step_unstable_of_cons`), which are
legal and can be any legal pair (`exists_draw_of_legal`), at the second edge as at the first. -/
theorem unstableEdgeShowsSomeLegalWords : Obligations.UnstableEdgeShowsSomeLegalWords := by
  refine ⟨fun d s rest h => ?_, fun r c hr hc => ?_, fun r r' c c' hr hr' hc hc' => ?_⟩
  · exact ⟨_, _, legalRsp_answerWord d.answer, legalTrc_tracedWord d.trace,
      step_unstable_of_cons h⟩
  · obtain ⟨d, rfl, rfl⟩ := exists_draw_of_legal hr hc
    exact ⟨d, fun s rest h => step_unstable_of_cons h⟩
  · obtain ⟨d, rfl, rfl⟩ := exists_draw_of_legal hr hc
    obtain ⟨d', rfl, rfl⟩ := exists_draw_of_legal hr' hc'
    exact ⟨d, d', fun s rest h =>
      ⟨_, _, step_unstable_of_cons h, step_unstable_of_cons rfl, rfl, rfl, rfl, Option.map_map ..⟩⟩

/-! ### One response per request -/

/-- An answer's word is valid with status `Ok` exactly when its frame is traced (R106, R111). -/
theorem rsp_ok_answerWord {a : Option Answer} :
    rspValid (answerWord a) = 1 ∧ rspStatus (answerWord a) = 0 ↔ (answerTrace a).isSome := by
  rcases a with _ | (e | d)
  · decide
  · cases e <;> decide
  · simp [answerWord, acceptWord, rspWord_fields, statusOk, answerTrace, Except.toOption]

/-- The valid field of a trace word (R64). -/
theorem trcWord_valid (v r k : Bit) (d : FrameData) (i : BitVec 4) :
    (trcWord v d r k i).extractLsb' 15 1 = v := by
  apply BitVec.eq_of_getLsbD_eq
  intro j hj
  obtain rfl : j = 0 := by omega
  rw [BitVec.getLsbD_extractLsb', trcWord_getLsbD]
  simp

/-- A trace word is valid exactly when something was traced (R29). -/
theorem trcValid_tracedWord {t : Option FrameData} :
    (traceOutputs (tracedWord t)).trcValid = 1 ↔ t.isSome := by
  cases t with
  | none => decide
  | some d => simp [tracedWord, traceWord, traceOutputs, trcWord_valid]

/-- A trace word that is not valid is all zero (R29). -/
theorem tracedWord_eq_zero {t : Option FrameData}
    (h : (traceOutputs (tracedWord t)).trcValid = 0) : tracedWord t = 0x0000 := by
  cases t with
  | none => rfl
  | some d => simp [tracedWord, traceWord, traceOutputs, trcWord_valid] at h

/-- An edge responds exactly to a request that does not meet `rst` (R108, R150). -/
theorem rspValid_edgeWords {q : Ports} :
    rspValid (edgeWords q).1 = 1 ↔ q.rst = 0 ∧ q.reqValid = 1 := by
  have hnone : ¬rspValid 0x00#8 = 1#1 := by decide
  rcases bit_cases q.rst with h | h
  · rcases bit_cases q.reqValid with hv | hv
    · simp [edgeWords_idle hv, hv, hnone]
    · rcases edgeWords_request_cases h hv with ⟨-, hw⟩ | ⟨-, -, hw⟩ | ⟨-, -, hw⟩
      · simp [hw, h, hv, failWord, rspWord_fields]
      · simp [hw, h, hv, failWord, rspWord_fields]
      · simp [hw, h, hv, acceptWord, rspWord_fields]
  · simp [edgeWords_reset h, h, hnone]

/-- Settles O31: an edge leaves the two words of its ports, valid exactly for an unreset request
(`rspValid_edgeWords`); they are those of one answer (`exists_answer_edgeWords`), traced exactly
when it is `Ok`. -/
theorem oneResponsePerRequest : Obligations.OneResponsePerRequest := by
  intro s q rest h
  obtain ⟨a, ha⟩ := exists_answer_edgeWords q
  have hvalid := rspValid_edgeWords (q := q)
  rw [ha] at hvalid
  refine ⟨_, step_edge_of_edgeWords h ha, hvalid, fun w hw => ?_⟩
  obtain ⟨_, _, rfl⟩ := Option.map_eq_some_iff.mp hw
  exact ⟨trcValid_tracedWord.trans rsp_ok_answerWord.symm, tracedWord_eq_zero⟩

/-! ### The truthful presentation -/

/-- A saturated count fits its port (R42). -/
theorem saturate_lt (w n : Nat) : saturate w n < 2 ^ w := by
  have hpos : 0 < 2 ^ w := Nat.two_pow_pos w
  unfold saturate
  omega

/-- Settles O33: the presentation is truthful (`present_presents`), a saturated count fits
(`saturate_lt`), and at legal widths it equals 1 or 9 only where the true count does
(`right_counts_lt_saturated`, `saturate_eq_iff`). -/
theorem presentationIsTruthful : Obligations.PresentationIsTruthful := by
  intro p buf hp
  obtain ⟨hone, hnine⟩ := right_counts_lt_saturated hp
  refine ⟨present_presents p buf, ⟨saturate_lt _ _, saturate_lt _ _⟩, saturate_eq_iff hone,
    fun h1 => ?_⟩
  have h : 0 < rows buf := by omega
  rw [(present_presents p buf).row0Len h h1, exists_prop_of_true h]
  exact saturate_eq_iff hnine

end Sys2Proof.Machine
end
